-- ==== Sys2Proof/Word.lean ====
section
/-! DEFINITION. The block's operand types: bytes, bus addresses, page sizes, page selectors, buffer names,
operation names, the two variants and the driver's transactions. Rules: 00_scope.md R7 to R9, 10_state.md R16 R20
R22, 30_encoding.md R52. -/

namespace Sys2Proof

/-- One byte, the width of every access (00_scope.md R8, 20_memory.md R36). -/
abbrev Byte := BitVec 8

/-- A 16-bit bus address, and the 16-bit offset given to a Pager (00_scope.md R8). -/
abbrev Addr := BitVec 16

/-- PageSizeKb, the four addressing granularities (00_scope.md R7). Their byte values are
`sizeBytes` in Machine/Operands.lean. -/
inductive PageSizeKb where
  | kb1
  | kb4
  | kb8
  | kb16
deriving DecidableEq, Repr

/-- Page, the tagged selector (00_scope.md R2). The index and the distance are unbounded naturals (R9). -/
inductive Page where
  | first (size : PageSizeKb)
  | last (size : PageSizeKb)
  | number (index : Nat) (size : PageSizeKb)
  | fromEnd (distance : Nat) (size : PageSizeKb)
deriving DecidableEq, Repr

/-- The three buffers (10_state.md R22). The fourth has no state and no name (R24). -/
inductive BufferId where
  | prgRom
  | chrRom
  | chrRam
deriving DecidableEq, Repr

/-- Which mapper the block is, fixed at construction (10_state.md R16). -/
inductive Variant where
  | mapper2
  | mapper3
deriving DecidableEq, Repr

/-- The open type of the header's mirroring field (10_state.md R20): the source names Horizontal and
Vertical and cuts the list off there; `other` stands for every member it does not name.
DESIGN CHOICE, log entry 5. -/
inductive Mirroring where
  | horizontal
  | vertical
  | other (member : Nat)
deriving DecidableEq, Repr

/-- The eight operations of the two ports (30_encoding.md R54, R58), as a fault record names them
(60_exceptions.md R110). -/
inductive Operation where
  | rdPrg
  | wrPrg
  | rdChr
  | wrChr
  | mirror
  | pgRead
  | pgWrite
  | pgCount
deriving DecidableEq, Repr

/-- The structured form of a Pager-port command (30_encoding.md R57): it carries an index of any size. -/
inductive PagerCommand where
  | read (buffer : BufferId) (page : Page) (offset : Addr)
  | write (buffer : BufferId) (page : Page) (offset : Addr) (value : Byte)
  | count (buffer : BufferId) (size : PageSizeKb)
deriving DecidableEq, Repr

/-- One transaction of the bus driver: an MT32 word on the mapper port, a PC64 word on the Pager port
(30_encoding.md R52), or a structured Pager command, which the spec uses for indices of 2^32 or more (R57). -/
inductive Request where
  | mapperWord (w : BitVec 32)
  | pagerWord (w : BitVec 64)
  | pagerCommand (c : PagerCommand)
deriving DecidableEq, Repr

end Sys2Proof
end

