-- ==== Sys2Proof/Config.lean ====
section
/-! DEFINITION. What one configuration fixes: the construction arguments that State.reset stands for
(00_scope.md R10 gives none of them a value) and what an unlisted byte of a buffer's cell list reads as. -/

namespace Sys2Proof.Config

/-- The byte that a buffer index reads as when the buffer's cell list does not list it. It is a matter of
writing a byte sequence down: every byte sequence has exactly one canonical cell list, whatever this byte is.
DESIGN CHOICE, log entry 4. -/
def unlistedByte : Byte := 0x00#8

/-- The `mapper_id` that State.reset is constructed with (00_scope.md R10). DESIGN CHOICE, log entry 3. -/
def resetMapperId : Nat := 2

/-- The variant `resetMapperId` selects (42_mapper_capability.md R82): the reader of table words decodes for it.
DESIGN CHOICE, log entries 3 and 8. -/
def resetVariant : Variant := .mapper2

/-- The `mirroring` header field of State.reset (00_scope.md R10). DESIGN CHOICE, log entry 3. -/
def resetMirroring : Mirroring := .horizontal

/-- The `chr_rom_pages` header field of State.reset (00_scope.md R10). DESIGN CHOICE, log entry 3. -/
def resetChrRomPages : Nat := 0

/-- The length of each of State.reset's three buffers (00_scope.md R10). DESIGN CHOICE, log entry 3. -/
def resetBufferLength : Nat := 0

end Sys2Proof.Config
end

