-- ==== Sys2Proof/Syntax.lean ====
section
/-! DEFINITION. The instructions: one constructor a row of spec/opcode_table.json. -/

namespace Sys2Proof

/-- The thirteen rows of the opcode table. A constructor holds the fields its operation uses; the ignored fields
(30_encoding.md R56, R58) are no operands. A mapper operation is one row a variant (42_mapper_capability.md R81). -/
inductive Instr where
  /-- M2.RD_PRG (43_mapper2_uxrom.md R92). -/
  | m2RdPrg (a : Addr)
  /-- M2.WR_PRG (43_mapper2_uxrom.md R93). -/
  | m2WrPrg (a : Addr) (d : Byte)
  /-- M2.RD_CHR (43_mapper2_uxrom.md R94). -/
  | m2RdChr (a : Addr)
  /-- M2.WR_CHR (43_mapper2_uxrom.md R95). -/
  | m2WrChr (a : Addr) (d : Byte)
  /-- M2.MIRROR (43_mapper2_uxrom.md R96). -/
  | m2Mirror
  /-- M3.RD_PRG (44_mapper3_cnrom.md R100). -/
  | m3RdPrg (a : Addr)
  /-- M3.WR_PRG (44_mapper3_cnrom.md R101). -/
  | m3WrPrg (a : Addr) (d : Byte)
  /-- M3.RD_CHR (44_mapper3_cnrom.md R102). -/
  | m3RdChr (a : Addr)
  /-- M3.WR_CHR (44_mapper3_cnrom.md R103). -/
  | m3WrChr (a : Addr) (d : Byte)
  /-- M3.MIRROR (44_mapper3_cnrom.md R104). -/
  | m3Mirror
  /-- PG_READ (41_pager.md R76). -/
  | pgRead (buffer : BufferId) (page : Page) (offset : Addr)
  /-- PG_WRITE (41_pager.md R77). -/
  | pgWrite (buffer : BufferId) (page : Page) (offset : Addr) (value : Byte)
  /-- PG_COUNT (41_pager.md R78). -/
  | pgCount (buffer : BufferId) (size : PageSizeKb)
deriving DecidableEq, Repr

end Sys2Proof
end

