-- ==== Sys2Proof/WellFormed.lean ====
section
/-! DEFINITION. Which instructions have a word (the index fits the 32-bit N field, 30_encoding.md R57), and which
variant's block an instruction belongs to (42_mapper_capability.md R81). -/

namespace Sys2Proof

/-- The selector's index or distance fits the 32-bit field N (30_encoding.md R57). -/
def Page.fitsWord : Page → Bool
  | .first _ => true
  | .last _ => true
  | .number n _ => decide (n < 2 ^ 32)
  | .fromEnd n _ => decide (n < 2 ^ 32)

/-- The instruction has a transaction word. One that has none (an index of 2^32 or more) is still an operation of
the block: it travels as a structured Pager command (30_encoding.md R57, 00_scope.md R9). -/
def Instr.wellFormed : Instr → Bool
  | .m2RdPrg _ => true
  | .m2WrPrg _ _ => true
  | .m2RdChr _ => true
  | .m2WrChr _ _ => true
  | .m2Mirror => true
  | .m3RdPrg _ => true
  | .m3WrPrg _ _ => true
  | .m3RdChr _ => true
  | .m3WrChr _ _ => true
  | .m3Mirror => true
  | .pgRead _ p _ => p.fitsWord
  | .pgWrite _ p _ _ => p.fitsWord
  | .pgCount _ _ => true

/-- The instruction is an operation of a block of variant `v`: a mapper operation only of its own variant
(42_mapper_capability.md R81), a Pager command of both (the table's "any (Pager port)"). -/
def Instr.availableOn (v : Variant) : Instr → Bool
  | .m2RdPrg _ => decide (v = .mapper2)
  | .m2WrPrg _ _ => decide (v = .mapper2)
  | .m2RdChr _ => decide (v = .mapper2)
  | .m2WrChr _ _ => decide (v = .mapper2)
  | .m2Mirror => decide (v = .mapper2)
  | .m3RdPrg _ => decide (v = .mapper3)
  | .m3WrPrg _ _ => decide (v = .mapper3)
  | .m3RdChr _ => decide (v = .mapper3)
  | .m3WrChr _ _ => decide (v = .mapper3)
  | .m3Mirror => decide (v = .mapper3)
  | .pgRead _ _ _ => true
  | .pgWrite _ _ _ _ => true
  | .pgCount _ _ => true

/-- The operation an instruction performs (30_encoding.md R54, R58). -/
def Instr.operation : Instr → Operation
  | .m2RdPrg _ => .rdPrg
  | .m2WrPrg _ _ => .wrPrg
  | .m2RdChr _ => .rdChr
  | .m2WrChr _ _ => .wrChr
  | .m2Mirror => .mirror
  | .m3RdPrg _ => .rdPrg
  | .m3WrPrg _ _ => .wrPrg
  | .m3RdChr _ => .rdChr
  | .m3WrChr _ _ => .wrChr
  | .m3Mirror => .mirror
  | .pgRead _ _ _ => .pgRead
  | .pgWrite _ _ _ _ => .pgWrite
  | .pgCount _ _ => .pgCount

end Sys2Proof
end

