-- ==== Sys2Proof/Decode.lean ====
section
/-! DEFINITION. The decoder of the two ports, total on every word and rejecting by name (30_encoding.md R53 to R64),
the encoder written from the same tables, and the reader of opcode-table words. -/

namespace Sys2Proof

/-- Why a word is outside the spec's encoding (30_encoding.md R62). -/
inductive DecodeReject where
  /-- An MT32 word with Z not 0. -/
  | reservedZ
  /-- An MT32 word with OP 101, 110 or 111. -/
  | reservedMapperOp
  /-- A PC64 word with OP 11. -/
  | reservedPagerOp
  /-- A PC64 word with B = 11, the unidentified fourth buffer (10_state.md R24). -/
  | reservedBuffer
deriving DecidableEq, Repr

/-! Fields of MT32 (30_encoding.md R53). -/

/-- Z, bits [31:27]. -/
def mapperZ (w : BitVec 32) : BitVec 5 := w.extractLsb' 27 5
/-- OP, bits [26:24]. -/
def mapperOp (w : BitVec 32) : BitVec 3 := w.extractLsb' 24 3
/-- A, bits [23:8]. -/
def mapperA (w : BitVec 32) : Addr := w.extractLsb' 8 16
/-- D, bits [7:0]. -/
def mapperD (w : BitVec 32) : Byte := w.extractLsb' 0 8

/-! Fields of PC64 (30_encoding.md R57). -/

/-- OP, bits [63:62]. -/
def pagerOp (w : BitVec 64) : BitVec 2 := w.extractLsb' 62 2
/-- K, bits [61:60]. -/
def pagerK (w : BitVec 64) : BitVec 2 := w.extractLsb' 60 2
/-- S, bits [59:58]. -/
def pagerS (w : BitVec 64) : BitVec 2 := w.extractLsb' 58 2
/-- B, bits [57:56]. -/
def pagerB (w : BitVec 64) : BitVec 2 := w.extractLsb' 56 2
/-- N, bits [55:24]. -/
def pagerN (w : BitVec 64) : BitVec 32 := w.extractLsb' 24 32
/-- O, bits [23:8]. -/
def pagerO (w : BitVec 64) : Addr := w.extractLsb' 8 16
/-- D, bits [7:0]. -/
def pagerD (w : BitVec 64) : Byte := w.extractLsb' 0 8

/-- The size code S (30_encoding.md R60): all four codes are legal. -/
def decodeSize (s : BitVec 2) : PageSizeKb :=
  if s = 0b00#2 then .kb1
  else if s = 0b01#2 then .kb4
  else if s = 0b10#2 then .kb8
  else .kb16

/-- The buffer select B (30_encoding.md R61): 11 is reserved. -/
def decodeBuffer (b : BitVec 2) : Option BufferId :=
  if b = 0b00#2 then some .prgRom
  else if b = 0b01#2 then some .chrRom
  else if b = 0b10#2 then some .chrRam
  else none

/-- The selector kind K (30_encoding.md R59); First and Last ignore N (R58). -/
def decodePage (k : BitVec 2) (s : PageSizeKb) (n : BitVec 32) : Page :=
  if k = 0b00#2 then .first s
  else if k = 0b01#2 then .last s
  else if k = 0b10#2 then .number n.toNat s
  else .fromEnd n.toNat s

/-- The Mapper2 operation of an MT32 code (30_encoding.md R54). -/
def decodeMapper2Op (op : BitVec 3) (a : Addr) (d : Byte) : Except DecodeReject Instr :=
  if op = 0b000#3 then .ok (.m2RdPrg a)
  else if op = 0b001#3 then .ok (.m2WrPrg a d)
  else if op = 0b010#3 then .ok (.m2RdChr a)
  else if op = 0b011#3 then .ok (.m2WrChr a d)
  else if op = 0b100#3 then .ok .m2Mirror
  else .error .reservedMapperOp

/-- The Mapper3 operation of an MT32 code (30_encoding.md R54). -/
def decodeMapper3Op (op : BitVec 3) (a : Addr) (d : Byte) : Except DecodeReject Instr :=
  if op = 0b000#3 then .ok (.m3RdPrg a)
  else if op = 0b001#3 then .ok (.m3WrPrg a d)
  else if op = 0b010#3 then .ok (.m3RdChr a)
  else if op = 0b011#3 then .ok (.m3WrChr a d)
  else if op = 0b100#3 then .ok .m3Mirror
  else .error .reservedMapperOp

/-- The operation of an MT32 code for a block of variant `v` (42_mapper_capability.md R81). -/
def decodeMapperOp (v : Variant) (op : BitVec 3) (a : Addr) (d : Byte) : Except DecodeReject Instr :=
  match v with
  | .mapper2 => decodeMapper2Op op a d
  | .mapper3 => decodeMapper3Op op a d

/-- Decoding a mapper-port word for a block of variant `v` (30_encoding.md R53, R54, R62; 42_mapper_capability.md
R81): the word names the operation, the variant names the row. -/
def decodeMapperWord (v : Variant) (w : BitVec 32) : Except DecodeReject Instr :=
  if mapperZ w = 0b00000#5 then decodeMapperOp v (mapperOp w) (mapperA w) (mapperD w)
  else .error .reservedZ

/-- The Pager command of an unreserved PC64 code (30_encoding.md R58): 00 reads, 01 writes, 10 counts. -/
def pagerInstr (op : BitVec 2) (b : BufferId) (k : BitVec 2) (s : PageSizeKb) (n : BitVec 32) (o : Addr) (d : Byte) :
    Instr :=
  if op = 0b00#2 then .pgRead b (decodePage k s n) o
  else if op = 0b01#2 then .pgWrite b (decodePage k s n) o d
  else .pgCount b s

/-- Decoding a Pager-port word (30_encoding.md R57 to R62). -/
def decodePagerWord (w : BitVec 64) : Except DecodeReject Instr :=
  if pagerOp w = 0b11#2 then .error .reservedPagerOp
  else
    match decodeBuffer (pagerB w) with
    | none => .error .reservedBuffer
    | some b => .ok (pagerInstr (pagerOp w) b (pagerK w) (decodeSize (pagerS w)) (pagerN w) (pagerO w) (pagerD w))

/-- The instruction a structured Pager command is (30_encoding.md R57). -/
def commandInstr : PagerCommand → Instr
  | .read b p o => .pgRead b p o
  | .write b p o d => .pgWrite b p o d
  | .count b s => .pgCount b s

/-- Decoding one transaction for a block of variant `v` (30_encoding.md R64): total, rejecting by name. -/
def decodeRequest (v : Variant) : Request → Except DecodeReject Instr
  | .mapperWord w => decodeMapperWord v w
  | .pagerWord w => decodePagerWord w
  | .pagerCommand c => .ok (commandInstr c)

/-! The encoder, from the same tables; ignored fields are zero (30_encoding.md R56, R65). -/

/-- The MT32 word of an operation code and its fields, Z = 0: `(OP << 24) | (A << 8) | D` (30_encoding.md R53). -/
def mapperWordOf (op : BitVec 3) (a : Addr) (d : Byte) : BitVec 32 :=
  (op.setWidth 32 <<< 24) ||| (a.setWidth 32 <<< 8) ||| d.setWidth 32

/-- The PC64 word of its seven fields, each shifted to its place (30_encoding.md R57). -/
def pagerWordOf (op k s b : BitVec 2) (n : BitVec 32) (o : Addr) (d : Byte) : BitVec 64 :=
  (op.setWidth 64 <<< 62) ||| (k.setWidth 64 <<< 60) ||| (s.setWidth 64 <<< 58) ||| (b.setWidth 64 <<< 56) |||
    (n.setWidth 64 <<< 24) ||| (o.setWidth 64 <<< 8) ||| d.setWidth 64

/-- The size code S (30_encoding.md R60). -/
def sizeCode : PageSizeKb → BitVec 2
  | .kb1 => 0b00#2
  | .kb4 => 0b01#2
  | .kb8 => 0b10#2
  | .kb16 => 0b11#2

/-- The buffer select B (30_encoding.md R61). -/
def bufferCode : BufferId → BitVec 2
  | .prgRom => 0b00#2
  | .chrRom => 0b01#2
  | .chrRam => 0b10#2

/-- The selector kind K (30_encoding.md R59). -/
def pageKindCode : Page → BitVec 2
  | .first _ => 0b00#2
  | .last _ => 0b01#2
  | .number _ _ => 0b10#2
  | .fromEnd _ _ => 0b11#2

/-- The size a selector is given at, as its code. -/
def pageSizeCode : Page → BitVec 2
  | .first s => sizeCode s
  | .last s => sizeCode s
  | .number _ s => sizeCode s
  | .fromEnd _ s => sizeCode s

/-- The field N (30_encoding.md R57): the index or the distance, 0 where the selector has neither. -/
def pageNumberField : Page → BitVec 32
  | .first _ => 0#32
  | .last _ => 0#32
  | .number n _ => BitVec.ofNat 32 n
  | .fromEnd n _ => BitVec.ofNat 32 n

/-- The transaction word of a well-formed instruction (30_encoding.md R53, R54, R57, R58). -/
def encode : Instr → Request
  | .m2RdPrg a => .mapperWord (mapperWordOf 0b000#3 a 0#8)
  | .m2WrPrg a d => .mapperWord (mapperWordOf 0b001#3 a d)
  | .m2RdChr a => .mapperWord (mapperWordOf 0b010#3 a 0#8)
  | .m2WrChr a d => .mapperWord (mapperWordOf 0b011#3 a d)
  | .m2Mirror => .mapperWord (mapperWordOf 0b100#3 0#16 0#8)
  | .m3RdPrg a => .mapperWord (mapperWordOf 0b000#3 a 0#8)
  | .m3WrPrg a d => .mapperWord (mapperWordOf 0b001#3 a d)
  | .m3RdChr a => .mapperWord (mapperWordOf 0b010#3 a 0#8)
  | .m3WrChr a d => .mapperWord (mapperWordOf 0b011#3 a d)
  | .m3Mirror => .mapperWord (mapperWordOf 0b100#3 0#16 0#8)
  | .pgRead b p o =>
      .pagerWord (pagerWordOf 0b00#2 (pageKindCode p) (pageSizeCode p) (bufferCode b) (pageNumberField p) o 0#8)
  | .pgWrite b p o d =>
      .pagerWord (pagerWordOf 0b01#2 (pageKindCode p) (pageSizeCode p) (bufferCode b) (pageNumberField p) o d)
  | .pgCount b s => .pagerWord (pagerWordOf 0b10#2 0b00#2 (sizeCode s) (bufferCode b) 0#32 0#16 0#8)

/-! Words as spec/opcode_table.json numbers them: a row of 32 bits is an MT32 word, a row of 64 bits a PC64 word. -/

/-- The transaction an opcode-table word of `nbits` bits is: up to 32 bits a mapper-port word, up to 64 a Pager-port
word, with every bit above `nbits` zero; no transaction is longer. -/
def requestOfTableWord (nbits w : Nat) : Option Request :=
  if nbits ≤ 32 then some (.mapperWord (BitVec.ofNat 32 (w % 2 ^ nbits)))
  else if nbits ≤ 64 then some (.pagerWord (BitVec.ofNat 64 (w % 2 ^ nbits)))
  else none

/-- The instruction the decoder reads from an opcode-table word, for a block of the variant State.reset has: the five
Mapper3 rows share their words with the five Mapper2 rows, and only the block's variant tells them apart
(42_mapper_capability.md R81; DESIGN CHOICE, log entry 8). -/
def decodeTableWord (nbits w : Nat) : Option Instr :=
  match requestOfTableWord nbits w with
  | none => none
  | some r =>
    match decodeRequest Config.resetVariant r with
    | .ok i => some i
    | .error _ => none

end Sys2Proof
end

