-- ==== Sys2Proof/Machine/State.lean ====
section
/-! DEFINITION. The machine's state as plain data (10_state.md R14, R33), the fault record (60_exceptions.md R110 to
R113), the reasons a step can stop, and the state after reset. -/

namespace Sys2Proof.Machine

/-- The bytes of a buffer that are not `Config.unlistedByte`, as (index, byte) pairs. -/
abbrev Memory := List Host.Cell

/-- The canonical form: indices strictly rising, no entry equal to what an unlisted index reads as. Equal contents
are then equal lists. -/
def Memory.wf : Memory → Bool
  | [] => true
  | (i, v) :: rest =>
    decide (v ≠ Config.unlistedByte) && rest.all (fun c => decide (i < c.1)) && Memory.wf rest

/-- A byte sequence owned by one Pager (10_state.md R22): its length, and its bytes at 0 to length - 1. -/
structure Buffer where
  length : Nat
  cells : Memory
deriving DecidableEq, Repr

/-- The cell list is canonical and lists no index outside the buffer. -/
def Buffer.wf (b : Buffer) : Bool :=
  Memory.wf b.cells && b.cells.all (fun c => decide (c.1 < b.length))

/-- The mapper: its variant (10_state.md R16) together with the one bank-select register that variant has (R19).
Mapper2 has the 4-bit `prg_0` (R17), Mapper3 the 8-bit `chr_0` (R18). -/
inductive Mapper where
  | mapper2 (prg0 : BitVec 4)
  | mapper3 (chr0 : BitVec 8)
deriving DecidableEq, Repr

/-- The three fault kinds (60_exceptions.md R108). -/
inductive FaultKind where
  | addressFault
  | pageBoundsFault
  | malformedImageFault
deriving DecidableEq, Repr

/-- The `reason` of a PageBoundsFault (60_exceptions.md R112). -/
inductive BoundsReason where
  | bankRange
  | offsetRange
deriving DecidableEq, Repr

/-- The info of a fault (60_exceptions.md R111, R112, R113), which also says its kind. -/
inductive FaultInfo where
  | address (op : Operation) (address : Addr)
  | pageBounds (buffer : BufferId) (page : Page) (offset : Addr) (reason : BoundsReason)
  | malformedImage (buffer : BufferId) (length : Nat) (size : Nat)
deriving DecidableEq, Repr

/-- The fault record (60_exceptions.md R110): the operation that raised it and its info. The record's `kind` and
`code` are functions of the info (Machine/Flags.lean). DEDUCED, log entry 11. -/
structure FaultRecord where
  op : Operation
  info : FaultInfo
deriving DecidableEq, Repr

/-- The state of one Pager block, field for field the record of 10_state.md R14; `variant` and the register it has
are one field, `mapper`. -/
structure Block where
  mapper : Mapper
  prgRom : Buffer
  chrRom : Buffer
  chrRam : Buffer
  mirroring : Mirroring
  chrRomPages : Nat
  fault : Option FaultRecord
deriving DecidableEq, Repr

/-- What the block answers one transaction with (30_encoding.md R52). -/
inductive Response where
  /-- WR_PRG, WR_CHR and PG_WRITE. -/
  | nothing
  /-- RD_PRG, RD_CHR and PG_READ. -/
  | rdata (value : Byte)
  /-- MIRROR. -/
  | mirroring (value : Mirroring)
  /-- PG_COUNT. -/
  | count (value : Nat)
  /-- The operation ended in a fault and has no result (60_exceptions.md R110). -/
  | fault (record : FaultRecord)
deriving DecidableEq, Repr

/-- What construction is given (00_scope.md R10, 70_reset_and_hazards.md R126). -/
structure CartridgeData where
  prgRom : Buffer
  chrRom : Buffer
  chrRam : Buffer
  mirroring : Mirroring
  chrRomPages : Nat
deriving DecidableEq, Repr

/-- The machine: the block, and the two ends of its ports. -/
structure State where
  /-- The block's own state (10_state.md R14). -/
  block : Block
  /-- The driver's transactions not yet accepted, oldest first (10_state.md R26). DESIGN CHOICE, log entry 1. -/
  pending : List Request
  /-- The response to the last accepted transaction, none before the first (30_encoding.md R52).
  DESIGN CHOICE, log entry 2. -/
  response : Option Response
deriving DecidableEq, Repr

/-- Where the machine stops with a fault. The block's own three fault kinds are no such stop: taking one is a next
state, whose `fault` field holds the record (60_exceptions.md R110). -/
inductive Fault where
  /-- The block is in the terminal faulted state and has no step (60_exceptions.md R116). Raised by `fetch` and by
  every meaning. Safe: the spec gives no step here. Log entry 6. -/
  | sessionOver (record : FaultRecord)
deriving DecidableEq, Repr

/-- Where the model gives an input no meaning (00_scope.md R13). None of these is a fault of the block
(60_exceptions.md R117). -/
inductive Refusal where
  /-- An instruction whose meaning is not written. Raised by no arm of this model. Safe. -/
  | notModelled (mnemonic : String)
  /-- A word outside the spec's encoding (30_encoding.md R62). Raised by `fetch`. Safe. -/
  | refusedEncoding (reason : DecodeReject)
  /-- The driver has issued no operation, and the block has no step of its own (10_state.md R15). Raised by `fetch`.
  Safe. Log entry 7. -/
  | noTransaction
  /-- A `mapper_id` other than 2 and 3 (42_mapper_capability.md R82). Raised by `construct`. Safe. -/
  | unsupportedMapper (mapperId : Nat)
  /-- A mapper operation of the other variant, which this block does not have (42_mapper_capability.md R81). Raised
  by the mapper meanings, and never reached by `step`, whose decoder reads the block's own variant. Safe.
  Log entry 9. -/
  | otherVariant
deriving DecidableEq, Repr

/-- A buffer as State.reset has it: `Config.resetBufferLength` bytes, none listed. -/
def Buffer.atReset : Buffer := { length := Config.resetBufferLength, cells := [] }

/-- The machine right after construction (10_state.md R33, 70_reset_and_hazards.md R126): `prg_0` = 0 and no fault,
as the spec says; the construction arguments are the model's choice (log entry 3), and no transaction has been
issued (log entries 1 and 2). -/
def State.reset : State :=
  { block :=
      { mapper := .mapper2 0#4
        prgRom := Buffer.atReset
        chrRom := Buffer.atReset
        chrRam := Buffer.atReset
        mirroring := Config.resetMirroring
        chrRomPages := Config.resetChrRomPages
        fault := none }
    pending := []
    response := none }

end Sys2Proof.Machine
end

