-- ==== Sys2Proof/Machine/Flags.lean ====
section
/-! DEFINITION. The block has no flags or condition codes (10_state.md R27); its only status is the fault status
output (30_encoding.md R52), with the kinds and codes of 60_exceptions.md R108. -/

namespace Sys2Proof.Machine

/-- The kind of a fault (60_exceptions.md R108). -/
def faultKind : FaultInfo → FaultKind
  | .address _ _ => .addressFault
  | .pageBounds _ _ _ _ => .pageBoundsFault
  | .malformedImage _ _ _ => .malformedImageFault

/-- The numeric code of a fault kind (60_exceptions.md R108; the numbers are the spec's own, D11). -/
def faultCode : FaultKind → Nat
  | .addressFault => 1
  | .pageBoundsFault => 2
  | .malformedImageFault => 3

/-- The record's `kind` field (60_exceptions.md R110). -/
def recordKind (r : FaultRecord) : FaultKind := faultKind r.info

/-- The record's `code` field (60_exceptions.md R110). -/
def recordCode (r : FaultRecord) : Nat := faultCode (recordKind r)

/-- The status output (30_encoding.md R52): None or the fault record. -/
def statusOutput (s : State) : Option FaultRecord := s.block.fault

end Sys2Proof.Machine
end

