-- ==== Sys2Proof/Machine/Operands.lean ====
section
/-! DEFINITION. Every operand form: page sizes, page selectors and their canonical form (00_scope.md R7, 41_pager.md
R69 to R71), the two address domains and the window decode (42_mapper_capability.md R83 to R87), and the accessors
of the mapper's register. -/

namespace Sys2Proof.Machine

/-- The byte value of a page size (00_scope.md R7). -/
def sizeBytes : PageSizeKb → Nat
  | .kb1 => 1024
  | .kb4 => 4096
  | .kb8 => 8192
  | .kb16 => 16384

/-- The size a selector is given at (41_pager.md R72, `size(page)`). -/
def pageSize : Page → PageSizeKb
  | .first s => s
  | .last s => s
  | .number _ s => s
  | .fromEnd _ s => s

/-- The bank number of a selector's canonical form `Number(n, size)`, for a buffer of `pc` pages; none where the
selector has no canonical form (41_pager.md R69 to R72). -/
def canonicalBank (pc : Nat) : Page → Option Nat
  | .first _ => some 0
  | .last _ => if pc = 0 then none else some (pc - 1)
  | .fromEnd d _ => if pc ≤ d then none else some (pc - 1 - d)
  | .number k _ => some k

/-- The variant of a mapper (10_state.md R16). -/
def mapperVariant : Mapper → Variant
  | .mapper2 _ => .mapper2
  | .mapper3 _ => .mapper3

/-- The low 4 bits of the written byte, `D & 0x0F` (43_mapper2_uxrom.md R93). -/
def prgBankOfData (d : Byte) : BitVec 4 := d.extractLsb' 0 4

/-- `prg_domain_check` (42_mapper_capability.md R83): the fault of an address below 0x8000, if it is one. -/
def prgDomainFault (op : Operation) (a : Addr) : Option FaultInfo :=
  if a < 0x8000#16 then some (.address op a) else none

/-- `chr_domain_check` (42_mapper_capability.md R84): the fault of an address at or above 0x2000, if it is one. -/
def chrDomainFault (op : Operation) (a : Addr) : Option FaultInfo :=
  if 0x2000#16 ≤ a then some (.address op a) else none

/-- The address is in the low program window, 0x8000 to 0xBFFF, given that it is in the program domain
(42_mapper_capability.md R86). -/
def inLowWindow (a : Addr) : Bool := decide (a ≤ 0xBFFF#16)

/-- The offset a program window gives the Pager (42_mapper_capability.md R86): `A - 0x8000` in the low window,
`A - 0xC000` in the high one. -/
def windowOffset (a : Addr) : Addr :=
  if inLowWindow a then a - 0x8000#16 else a - 0xC000#16

/-- Mapper2's page of a program-space read (43_mapper2_uxrom.md R92). -/
def mapper2PrgPage (prg0 : BitVec 4) (a : Addr) : Page :=
  if inLowWindow a then .number prg0.toNat .kb16 else .last .kb16

/-- Mapper3's page of a program-space read (44_mapper3_cnrom.md R100). -/
def mapper3PrgPage (a : Addr) : Page :=
  if inLowWindow a then .first .kb16 else .last .kb16

/-- `m2_chr_buffer` (43_mapper2_uxrom.md R91). -/
def mapper2ChrBuffer (chrRomPages : Nat) : BufferId :=
  if chrRomPages = 0 then .chrRam else .chrRom

/-- `m2_chr_page` (43_mapper2_uxrom.md R91). -/
def mapper2ChrPage : Page := .first .kb8

/-- Mapper3's page of a character-space read (44_mapper3_cnrom.md R102). -/
def mapper3ChrPage (chr0 : BitVec 8) : Page := .number chr0.toNat .kb8

end Sys2Proof.Machine
end

