-- ==== Sys2Proof/Machine/Ops.lean ====
section
/-! DEFINITION. The named operations: bytes of a buffer, the Pager (41_pager.md R67 to R75), the decoder
multiplexer's targets (42_mapper_capability.md R85), taking a fault (60_exceptions.md R110), running one operation,
and construction (70_reset_and_hazards.md R126). -/

namespace Sys2Proof.Machine

/-! Bytes of a buffer. -/

/-- The byte at an index: the listed one, `Config.unlistedByte` where none is listed. -/
def Memory.read : Memory → Nat → Byte
  | [], _ => Config.unlistedByte
  | (j, v) :: rest, i => if j = i then v else Memory.read rest i

/-- Puts a cell before the first cell of a higher index. -/
def Memory.insert (i : Nat) (v : Byte) : Memory → Memory
  | [] => [(i, v)]
  | c :: rest => if i < c.1 then (i, v) :: c :: rest else c :: Memory.insert i v rest

/-- The memory without its cell at an index. -/
def Memory.erase (i : Nat) : Memory → Memory
  | [] => []
  | c :: rest => if c.1 = i then Memory.erase i rest else c :: Memory.erase i rest

/-- Replaces the byte at an index, keeping the canonical form: writing `Config.unlistedByte` removes the cell. -/
def Memory.write (m : Memory) (i : Nat) (v : Byte) : Memory :=
  if v = Config.unlistedByte then Memory.erase i m else Memory.insert i v (Memory.erase i m)

/-- `MemRead(b@i, 1)` (00_scope.md R12). -/
def Buffer.read (b : Buffer) (i : Nat) : Byte := Memory.read b.cells i

/-- `MemWrite(b@i, 1, v)` (00_scope.md R12). The length is fixed (10_state.md R22). -/
def Buffer.write (b : Buffer) (i : Nat) (v : Byte) : Buffer := { b with cells := Memory.write b.cells i v }

/-- The cells of a byte sequence whose first byte has index `k`. -/
def cellsFrom : Nat → List Byte → Memory
  | _, [] => []
  | k, v :: rest => if v = Config.unlistedByte then cellsFrom (k + 1) rest else (k, v) :: cellsFrom (k + 1) rest

/-- The buffer that holds a byte sequence (10_state.md R22: any sequence of any length is one). -/
def Buffer.ofBytes (l : List Byte) : Buffer := { length := l.length, cells := cellsFrom 0 l }

/-- The buffer a name selects (41_pager.md R67). -/
def Block.buffer (b : Block) : BufferId → Buffer
  | .prgRom => b.prgRom
  | .chrRom => b.chrRom
  | .chrRam => b.chrRam

/-- The block with one buffer replaced. -/
def Block.setBuffer (b : Block) (id : BufferId) (x : Buffer) : Block :=
  match id with
  | .prgRom => { b with prgRom := x }
  | .chrRom => { b with chrRom := x }
  | .chrRam => { b with chrRam := x }

/-! The Pager (41_pager.md). -/

/-- `page_count(b, s)` (41_pager.md R68): exact division, or MalformedImageFault. -/
def pageCount (b : Block) (id : BufferId) (s : PageSizeKb) : Except FaultInfo Nat :=
  if (b.buffer id).length % sizeBytes s = 0 then .ok ((b.buffer id).length / sizeBytes s)
  else .error (.malformedImage id (b.buffer id).length (sizeBytes s))

/-- `index(b, page, off)` (41_pager.md R72): the checks in their order, then `n * s + off`. -/
def pagerIndex (b : Block) (id : BufferId) (page : Page) (off : Addr) : Except FaultInfo Nat :=
  match pageCount b id (pageSize page) with
  | .error e => .error e
  | .ok pc =>
    match canonicalBank pc page with
    | none => .error (.pageBounds id page off .bankRange)
    | some n =>
      if pc ≤ n then .error (.pageBounds id page off .bankRange)
      else if sizeBytes (pageSize page) ≤ off.toNat then .error (.pageBounds id page off .offsetRange)
      else .ok (n * sizeBytes (pageSize page) + off.toNat)

/-- `PagerRead(b, page, off)` (41_pager.md R74). -/
def pagerRead (b : Block) (id : BufferId) (page : Page) (off : Addr) : Except FaultInfo Byte :=
  match pagerIndex b id page off with
  | .error e => .error e
  | .ok i => .ok ((b.buffer id).read i)

/-- `PagerWrite(b, page, off, v)` (41_pager.md R75). -/
def pagerWrite (b : Block) (id : BufferId) (page : Page) (off : Addr) (v : Byte) : Except FaultInfo Block :=
  match pagerIndex b id page off with
  | .error e => .error e
  | .ok i => .ok (b.setBuffer id ((b.buffer id).write i v))

/-! The decoder multiplexer's targets (42_mapper_capability.md R85). -/

/-- What the decoder produces for one bus operation. PagerAccess is split into its read and its write. -/
inductive Target where
  | pagerRead (buffer : BufferId) (page : Page) (offset : Addr)
  | pagerWrite (buffer : BufferId) (page : Page) (offset : Addr) (value : Byte)
  /-- A bank-select write: the mapper with its register's new value. -/
  | regWrite (mapper : Mapper)
  | discard
  | headerRead
deriving DecidableEq, Repr

/-- Carries a target out: RegWrite, Discard and HeaderRead consult no Pager and cannot fault
(42_mapper_capability.md R85). -/
def performTarget (b : Block) : Target → Except FaultInfo (Block × Response)
  | .pagerRead id page off =>
    match pagerRead b id page off with
    | .error e => .error e
    | .ok v => .ok (b, .rdata v)
  | .pagerWrite id page off v =>
    match pagerWrite b id page off v with
    | .error e => .error e
    | .ok b' => .ok (b', .nothing)
  | .regWrite m => .ok ({ b with mapper := m }, .nothing)
  | .discard => .ok (b, .nothing)
  | .headerRead => .ok (b, .mirroring b.mirroring)

/-- Asks a Pager for its page count (41_pager.md R78); it changes nothing. -/
def performCount (b : Block) (id : BufferId) (size : PageSizeKb) : Except FaultInfo (Block × Response) :=
  match pageCount b id size with
  | .error e => .error e
  | .ok n => .ok (b, .count n)

/-! Running an operation. -/

/-- Taking a fault (60_exceptions.md R110): `fault` takes the record and the operation has no result; no other state
changes (R114). There is no return from a fault (R116): nothing in the model clears `fault`. -/
def takeFault (s : State) (op : Operation) (info : FaultInfo) : State :=
  { s with
    block := { s.block with fault := some { op := op, info := info } }
    response := some (.fault { op := op, info := info }) }

/-- Ends an operation (00_scope.md R13): it completes with its writes and its response, or it takes its fault. -/
def conclude (s : State) (op : Operation) (r : Except FaultInfo (Block × Response)) :
    Host.Outcome State Fault Refusal :=
  match r with
  | .ok (b, resp) => .next { s with block := b, response := some resp }
  | .error info => .next (takeFault s op info)

/-- One Pager-port operation. A faulted block accepts none (60_exceptions.md R116). -/
def runPager (op : Operation) (s : State) (body : Block → Except FaultInfo (Block × Response)) :
    Host.Outcome State Fault Refusal :=
  match s.block.fault with
  | some r => .fault (.sessionOver r)
  | none => conclude s op (body s.block)

/-- The operation's steps of 42_mapper_capability.md R85: the domain check's fault if there is one, else the target. -/
def driveTarget (b : Block) (domainFault : Option FaultInfo) (target : Target) :
    Except FaultInfo (Block × Response) :=
  match domainFault with
  | some e => .error e
  | none => performTarget b target

/-- One Mapper2 operation (42_mapper_capability.md R81): its domain check and its target, from the register. -/
def runMapper2 (op : Operation) (s : State) (domainFault : Option FaultInfo) (target : BitVec 4 → Target) :
    Host.Outcome State Fault Refusal :=
  match s.block.fault with
  | some r => .fault (.sessionOver r)
  | none =>
    match s.block.mapper with
    | .mapper2 prg0 => conclude s op (driveTarget s.block domainFault (target prg0))
    | .mapper3 _ => .refused .otherVariant

/-- One Mapper3 operation (42_mapper_capability.md R81): its domain check and its target, from the register. -/
def runMapper3 (op : Operation) (s : State) (domainFault : Option FaultInfo) (target : BitVec 8 → Target) :
    Host.Outcome State Fault Refusal :=
  match s.block.fault with
  | some r => .fault (.sessionOver r)
  | none =>
    match s.block.mapper with
    | .mapper2 _ => .refused .otherVariant
    | .mapper3 chr0 => conclude s op (driveTarget s.block domainFault (target chr0))

/-! Construction and the driver's stream. -/

/-- The block of a cartridge and a mapper with its register (70_reset_and_hazards.md R126). -/
def blockOf (m : Mapper) (cart : CartridgeData) : Block :=
  { mapper := m
    prgRom := cart.prgRom
    chrRom := cart.chrRom
    chrRam := cart.chrRam
    mirroring := cart.mirroring
    chrRomPages := cart.chrRomPages
    fault := none }

/-- `construct(mapper_id, cart)` (70_reset_and_hazards.md R126, 42_mapper_capability.md R82). It checks nothing
about the buffers. -/
def construct (mapperId : Nat) (cart : CartridgeData) : Except Refusal Block :=
  if mapperId = 2 then .ok (blockOf (.mapper2 0#4) cart)
  else if mapperId = 3 then .ok (blockOf (.mapper3 0#8) cart)
  else .error (.unsupportedMapper mapperId)

/-- A constructed block whose driver has a stream of transactions to issue and has had no response yet. -/
def sessionOf (b : Block) (stream : List Request) : State := { block := b, pending := stream, response := none }

/-- The driver's stream with one more transaction in front of it. -/
def issueNext (s : State) (r : Request) : State := { s with pending := r :: s.pending }

/-- Accepts the next transaction (10_state.md R26, 30_encoding.md R51): the instruction it is for the block's variant,
and the state with it taken from the stream. A faulted block accepts none (60_exceptions.md R116); with no
transaction the block has no step (10_state.md R15); a refused word has no meaning (30_encoding.md R62). -/
def fetch (s : State) : Host.Outcome (Instr × State) Fault Refusal :=
  match s.block.fault with
  | some r => .fault (.sessionOver r)
  | none =>
    match s.pending with
    | [] => .refused .noTransaction
    | r :: rest =>
      match decodeRequest (mapperVariant s.block.mapper) r with
      | .error e => .refused (.refusedEncoding e)
      | .ok i => .next (i, { s with pending := rest })

end Sys2Proof.Machine
end

