-- ==== Sys2Proof/Machine/Mapper2.lean ====
section
/-! DEFINITION. The five operations of Mapper2, the UxROM bank-select state machine (43_mapper2_uxrom.md). -/

namespace Sys2Proof.Machine

/-- M2.RD_PRG (43_mapper2_uxrom.md R92). -/
def execM2RdPrg (a : Addr) (s : State) : Host.Outcome State Fault Refusal :=
  runMapper2 .rdPrg s (prgDomainFault .rdPrg a)
    (fun prg0 => .pagerRead .prgRom (mapper2PrgPage prg0 a) (windowOffset a))

/-- M2.WR_PRG (43_mapper2_uxrom.md R93). -/
def execM2WrPrg (a : Addr) (d : Byte) (s : State) : Host.Outcome State Fault Refusal :=
  runMapper2 .wrPrg s (prgDomainFault .wrPrg a) (fun _ => .regWrite (.mapper2 (prgBankOfData d)))

/-- M2.RD_CHR (43_mapper2_uxrom.md R94). -/
def execM2RdChr (a : Addr) (s : State) : Host.Outcome State Fault Refusal :=
  runMapper2 .rdChr s (chrDomainFault .rdChr a)
    (fun _ => .pagerRead (mapper2ChrBuffer s.block.chrRomPages) mapper2ChrPage a)

/-- M2.WR_CHR (43_mapper2_uxrom.md R95): a RAM write where the cartridge has no CHR ROM, else discarded. -/
def execM2WrChr (a : Addr) (d : Byte) (s : State) : Host.Outcome State Fault Refusal :=
  runMapper2 .wrChr s (chrDomainFault .wrChr a)
    (fun _ => if s.block.chrRomPages = 0 then .pagerWrite .chrRam mapper2ChrPage a d else .discard)

/-- M2.MIRROR (43_mapper2_uxrom.md R96). -/
def execM2Mirror (s : State) : Host.Outcome State Fault Refusal :=
  runMapper2 .mirror s none (fun _ => .headerRead)

end Sys2Proof.Machine
end

