-- ==== Sys2Proof/Machine/Mapper3.lean ====
section
/-! DEFINITION. The five operations of Mapper3, the CNROM bank-select state machine (44_mapper3_cnrom.md). -/

namespace Sys2Proof.Machine

/-- M3.RD_PRG (44_mapper3_cnrom.md R100). -/
def execM3RdPrg (a : Addr) (s : State) : Host.Outcome State Fault Refusal :=
  runMapper3 .rdPrg s (prgDomainFault .rdPrg a)
    (fun _ => .pagerRead .prgRom (mapper3PrgPage a) (windowOffset a))

/-- M3.WR_PRG (44_mapper3_cnrom.md R101): all 8 bits, no mask (R105). -/
def execM3WrPrg (a : Addr) (d : Byte) (s : State) : Host.Outcome State Fault Refusal :=
  runMapper3 .wrPrg s (prgDomainFault .wrPrg a) (fun _ => .regWrite (.mapper3 d))

/-- M3.RD_CHR (44_mapper3_cnrom.md R102). -/
def execM3RdChr (a : Addr) (s : State) : Host.Outcome State Fault Refusal :=
  runMapper3 .rdChr s (chrDomainFault .rdChr a) (fun chr0 => .pagerRead .chrRom (mapper3ChrPage chr0) a)

/-- M3.WR_CHR (44_mapper3_cnrom.md R103): the write is dropped, whatever its data. -/
def execM3WrChr (a : Addr) (_d : Byte) (s : State) : Host.Outcome State Fault Refusal :=
  runMapper3 .wrChr s (chrDomainFault .wrChr a) (fun _ => .discard)

/-- M3.MIRROR (44_mapper3_cnrom.md R104). -/
def execM3Mirror (s : State) : Host.Outcome State Fault Refusal :=
  runMapper3 .mirror s none (fun _ => .headerRead)

end Sys2Proof.Machine
end

