-- ==== Sys2Proof/Machine/Pager.lean ====
section
/-! DEFINITION. The three operations of the Pager port (41_pager.md R76 to R78). -/

namespace Sys2Proof.Machine

/-- PG_READ (41_pager.md R76). -/
def execPgRead (id : BufferId) (page : Page) (off : Addr) (s : State) : Host.Outcome State Fault Refusal :=
  runPager .pgRead s (fun b => performTarget b (.pagerRead id page off))

/-- PG_WRITE (41_pager.md R77): any buffer, the Pager knows no ROM. -/
def execPgWrite (id : BufferId) (page : Page) (off : Addr) (v : Byte) (s : State) :
    Host.Outcome State Fault Refusal :=
  runPager .pgWrite s (fun b => performTarget b (.pagerWrite id page off v))

/-- PG_COUNT (41_pager.md R78). -/
def execPgCount (id : BufferId) (size : PageSizeKb) (s : State) : Host.Outcome State Fault Refusal :=
  runPager .pgCount s (fun b => performCount b id size)

end Sys2Proof.Machine
end

