-- ==== Sys2Proof/Machine/Dispatch.lean ====
section
/-! DEFINITION. exec: one arm an instruction. -/

namespace Sys2Proof.Machine

def exec (i : Instr) (s : State) : Host.Outcome State Fault Refusal :=
  match i with
  | .m2RdPrg a => Sys2Proof.Machine.execM2RdPrg a s
  | .m2WrPrg a d => Sys2Proof.Machine.execM2WrPrg a d s
  | .m2RdChr a => Sys2Proof.Machine.execM2RdChr a s
  | .m2WrChr a d => Sys2Proof.Machine.execM2WrChr a d s
  | .m2Mirror => Sys2Proof.Machine.execM2Mirror s
  | .m3RdPrg a => Sys2Proof.Machine.execM3RdPrg a s
  | .m3WrPrg a d => Sys2Proof.Machine.execM3WrPrg a d s
  | .m3RdChr a => Sys2Proof.Machine.execM3RdChr a s
  | .m3WrChr a d => Sys2Proof.Machine.execM3WrChr a d s
  | .m3Mirror => Sys2Proof.Machine.execM3Mirror s
  | .pgRead buffer page offset => Sys2Proof.Machine.execPgRead buffer page offset s
  | .pgWrite buffer page offset value => Sys2Proof.Machine.execPgWrite buffer page offset value s
  | .pgCount buffer size => Sys2Proof.Machine.execPgCount buffer size s

end Sys2Proof.Machine
end

