-- ==== Sys2Proof/Machine/Step.lean ====
section
/-! DEFINITION. One step: accept the next transaction of the driver's stream and run it (30_encoding.md R51). -/

namespace Sys2Proof.Machine

/-- One whole operation (30_encoding.md R51, 70_reset_and_hazards.md R135). -/
def step (s : State) : Host.Outcome State Fault Refusal :=
  match fetch s with
  | .next (i, s') => exec i s'
  | .fault f => .fault f
  | .refused r => .refused r

/-- The state whose next transaction is an opcode-table word (log entry 1). A word longer than any transaction
leaves the stream as it is. -/
def State.withFetchWord (s : State) (nbits w : Nat) : State :=
  match requestOfTableWord nbits w with
  | some r => issueNext s r
  | none => s

end Sys2Proof.Machine
end

