-- ==== Sys2Proof/Machine/Assembler.lean ====
section
/-! DEFINITION. The assembler syntax of the two ports (30_encoding.md R65, R66): one operation a line, read to the
transaction it stands for. It is notation: no step reads it (log entry 12). -/

namespace Sys2Proof.Machine

/-- Closes the word being read, whose characters stand in reverse order. -/
def asmClose (word : List Char) (rest : List String) : List String :=
  if word = [] then rest else String.ofList word.reverse :: rest

/-- The tokens of a line: words, and the signs `,` `(` `)`; a `;` starts a comment (30_encoding.md R65). -/
def asmTokens : List Char → List Char → List String
  | [], word => asmClose word []
  | c :: cs, word =>
    if c = ';' then asmClose word []
    else if c = ' ' then asmClose word (asmTokens cs [])
    else if c = ',' ∨ c = '(' ∨ c = ')' then asmClose word (String.ofList [c] :: asmTokens cs [])
    else asmTokens cs (c :: word)

/-- The value of a numeral, most significant digit first: a digit's value is its place in the list of digits, the base
is the length of that list. None where a character is no digit. -/
def asmNumeral (digits numeral : List Char) : Option Nat :=
  numeral.foldlM (fun v d => (digits.idxOf? d).map (v * digits.length + ·)) 0

/-- The decimal digits of an index (30_encoding.md R66). -/
def asmDecimalDigits : List Char := "0123456789".toList

/-- The hexadecimal digits (30_encoding.md R65). -/
def asmHexDigits : List Char := asmDecimalDigits ++ "ABCDEF".toList

/-- A hexadecimal numeral, its letters in either case. -/
def asmHex (numeral : List Char) : Option Nat := asmNumeral asmHexDigits (numeral.map Char.toUpper)

/-- An address or offset, `$hhhh`. -/
def asmAddress (t : String) : Option Addr :=
  match t.toList with
  | '$' :: hhhh => if hhhh.length = 4 then (asmHex hhhh).map (BitVec.ofNat 16) else none
  | _ => none

/-- An immediate byte, `#$hh`. -/
def asmImmediate (t : String) : Option Byte :=
  match t.toList with
  | '#' :: '$' :: hh => if hh.length = 2 then (asmHex hh).map (BitVec.ofNat 8) else none
  | _ => none

/-- The index or distance of a selector, `<n>`. -/
def asmIndex (t : String) : Option Nat := if t = "" then none else asmNumeral asmDecimalDigits t.toList

/-- `<buf>` (30_encoding.md R66). -/
def asmBuffer (t : String) : Option BufferId :=
  if t = "PRG_ROM" then some .prgRom
  else if t = "CHR_ROM" then some .chrRom
  else if t = "CHR_RAM" then some .chrRam
  else none

/-- `<size>` (30_encoding.md R66). -/
def asmSize (t : String) : Option PageSizeKb :=
  if t = "KB1" then some .kb1
  else if t = "KB4" then some .kb4
  else if t = "KB8" then some .kb8
  else if t = "KB16" then some .kb16
  else none

/-- `<sel>` at the head of the tokens, with the tokens after it (30_encoding.md R66). -/
def asmSelector : List String → Option (Page × List String)
  | kind :: "(" :: size :: ")" :: rest =>
    if kind = "First" then (asmSize size).map (fun s => (.first s, rest))
    else if kind = "Last" then (asmSize size).map (fun s => (.last s, rest))
    else none
  | kind :: "(" :: n :: "," :: size :: ")" :: rest =>
    match asmIndex n, asmSize size with
    | some k, some s =>
      if kind = "Number" then some (.number k s, rest)
      else if kind = "FromEnd" then some (.fromEnd k s, rest)
      else none
    | _, _ => none
  | _ => none

/-- The transaction of a Pager command: its word where the index fits the word, else its structured form
(30_encoding.md R57). -/
def requestOfCommand (c : PagerCommand) : Request :=
  if (commandInstr c).wellFormed then encode (commandInstr c) else .pagerCommand c

/-- `<buf>, <sel>, $oooo` and what follows it. -/
def asmPagerOperands (ts : List String) : Option (BufferId × Page × Addr × List String) :=
  match ts with
  | buf :: "," :: rest =>
    match asmBuffer buf, asmSelector rest with
    | some b, some (p, "," :: off :: tail) => (asmAddress off).map (fun o => (b, p, o, tail))
    | _, _ => none
  | _ => none

/-- The transaction of a line's tokens (30_encoding.md R65, R66); omitted fields assemble to zero. There are no
pseudo-instructions. -/
def asmRequest : List String → Option Request
  | ["RD_PRG", a] => (asmAddress a).map (fun x => .mapperWord (mapperWordOf 0b000#3 x 0#8))
  | ["WR_PRG", a, ",", d] =>
    (asmAddress a).bind (fun x => (asmImmediate d).map (fun y => .mapperWord (mapperWordOf 0b001#3 x y)))
  | ["RD_CHR", a] => (asmAddress a).map (fun x => .mapperWord (mapperWordOf 0b010#3 x 0#8))
  | ["WR_CHR", a, ",", d] =>
    (asmAddress a).bind (fun x => (asmImmediate d).map (fun y => .mapperWord (mapperWordOf 0b011#3 x y)))
  | ["MIRROR"] => some (.mapperWord (mapperWordOf 0b100#3 0#16 0#8))
  | ["PG_COUNT", buf, ",", size] =>
    (asmBuffer buf).bind (fun b => (asmSize size).map (fun s => requestOfCommand (.count b s)))
  | "PG_READ" :: rest =>
    match asmPagerOperands rest with
    | some (b, p, o, []) => some (requestOfCommand (.read b p o))
    | _ => none
  | "PG_WRITE" :: rest =>
    match asmPagerOperands rest with
    | some (b, p, o, [",", d]) => (asmImmediate d).map (fun v => requestOfCommand (.write b p o v))
    | _ => none
  | _ => none

/-- The transaction one line of assembler text stands for; none where the line is not of the syntax. -/
def assembleLine (line : String) : Option Request := asmRequest (asmTokens line.toList [])

end Sys2Proof.Machine
end

