-- ==== Sys2Proof/Safety.lean ====
section
/-! DEFINITION. What counts as a well-kept state and as a safe session: canonical buffers, the launch premise
WellFormedCart (70_reset_and_hazards.md R129), and what the driver must keep to so that no fault is raised (R130). -/

namespace Sys2Proof.Machine

/-- Every buffer's cell list is canonical: the model's own well-formedness (log entry 4). -/
def Block.wf (b : Block) : Bool := b.prgRom.wf && b.chrRom.wf && b.chrRam.wf

/-- A buffer whose length is a non-zero multiple of a page size in bytes (70_reset_and_hazards.md R129). -/
def Buffer.wholePages (b : Buffer) (bytes : Nat) : Bool :=
  decide (b.length ≠ 0) && decide (b.length % bytes = 0)

/-- The launch premise WellFormedCart (70_reset_and_hazards.md R129, its three conditions). -/
def Block.wellFormedCart (b : Block) : Bool :=
  b.prgRom.wholePages 16384 &&
    match b.mapper with
    | .mapper2 _ => if b.chrRomPages = 0 then b.chrRam.wholePages 8192 else b.chrRom.wholePages 8192
    | .mapper3 _ => b.chrRom.wholePages 8192

/-- The bank-select register names a bank that exists (70_reset_and_hazards.md R130). -/
def Block.bankExists (b : Block) : Mapper → Bool
  | .mapper2 prg0 => decide (prg0.toNat < b.prgRom.length / 16384)
  | .mapper3 chr0 => decide (chr0.toNat < b.chrRom.length / 8192)

/-- A block in a safe session: no fault, a well-formed cartridge, a register that names a bank. -/
def Block.safe (b : Block) : Bool := decide (b.fault = none) && b.wellFormedCart && b.bankExists b.mapper

/-- The driver keeps to the documented ranges (42_mapper_capability.md R83, R84) and selects only banks that exist
(70_reset_and_hazards.md R130). Direct Pager commands are no part of such a session. -/
def keepsToMap (b : Block) : Instr → Bool
  | .m2RdPrg a => decide (0x8000#16 ≤ a)
  | .m2WrPrg a d => decide (0x8000#16 ≤ a) && b.bankExists (.mapper2 (prgBankOfData d))
  | .m2RdChr a => decide (a < 0x2000#16)
  | .m2WrChr a _ => decide (a < 0x2000#16)
  | .m2Mirror => true
  | .m3RdPrg a => decide (0x8000#16 ≤ a)
  | .m3WrPrg a d => decide (0x8000#16 ≤ a) && b.bankExists (.mapper3 d)
  | .m3RdChr a => decide (a < 0x2000#16)
  | .m3WrChr a _ => decide (a < 0x2000#16)
  | .m3Mirror => true
  | .pgRead _ _ _ => false
  | .pgWrite _ _ _ _ => false
  | .pgCount _ _ => false

/-- The byte an instruction stores to, when it stores one: the buffer, and the index its meaning computes
(41_pager.md R75, 43_mapper2_uxrom.md R95). An instruction that faults stores nothing. -/
def storedByte (b : Block) : Instr → Option (BufferId × Nat)
  | .m2RdPrg _ => none
  | .m2WrPrg _ _ => none
  | .m2RdChr _ => none
  | .m2WrChr a _ =>
    if b.chrRomPages = 0 then (pagerIndex b .chrRam mapper2ChrPage a).toOption.map (fun j => (.chrRam, j)) else none
  | .m2Mirror => none
  | .m3RdPrg _ => none
  | .m3WrPrg _ _ => none
  | .m3RdChr _ => none
  | .m3WrChr _ _ => none
  | .m3Mirror => none
  | .pgRead _ _ _ => none
  | .pgWrite id page off _ => (pagerIndex b id page off).toOption.map (fun j => (id, j))
  | .pgCount _ _ => none

/-- A session of operations run one after another (20_memory.md R44), ending at the first that stops. -/
def runInstrs : List Instr → State → Host.Outcome State Fault Refusal
  | [], s => .next s
  | i :: rest, s =>
    match exec i s with
    | .next t => runInstrs rest t
    | .fault f => .fault f
    | .refused r => .refused r

/-- What construction fixes for the session: the variant, the header fields and the three lengths (10_state.md R16,
R20, R21, R22). -/
structure Fixture where
  variant : Variant
  mirroring : Mirroring
  chrRomPages : Nat
  prgRomLength : Nat
  chrRomLength : Nat
  chrRamLength : Nat
deriving DecidableEq, Repr

/-- The fixed part of a block. -/
def Block.fixture (b : Block) : Fixture :=
  { variant := mapperVariant b.mapper
    mirroring := b.mirroring
    chrRomPages := b.chrRomPages
    prgRomLength := b.prgRom.length
    chrRomLength := b.chrRom.length
    chrRamLength := b.chrRam.length }

end Sys2Proof.Machine
end

