-- ==== Sys2Proof/Certificates/Slice0/Obligations.lean ====
section
/-! DEFINITION. The statements for the provers, each a Prop about the machine. Where a statement rests on a choice of
the spec's own (a decision D<n> of 92_eei_decisions.md) or of the model's (a log entry), its docstring says so. -/

open Sys2Proof Sys2Proof.Machine

/-! The terms of the statements. -/

/-- Bank `n` is the one a selector names in a buffer of `pc` pages (41_pager.md R69 to R71), written without a
difference: `last` is the n with n + 1 = pc, `fromEnd d` the n with n + d + 1 = pc. -/
def Sys2Proof.Claims.SelectsBank (pc : Nat) (page : Page) (n : Nat) : Prop :=
  match page with
  | .first _ => n = 0
  | .last _ => n + 1 = pc
  | .number k _ => n = k
  | .fromEnd d _ => n + d + 1 = pc

/-- Two resolutions agree (41_pager.md R79): the same index, or the same kind of fault. -/
def Sys2Proof.Claims.SameResolution (x y : Except FaultInfo Nat) : Prop :=
  match x, y with
  | .ok i, .ok j => i = j
  | .error e, .error f => faultKind e = faultKind f
  | _, _ => False

/-- The state with a byte delivered and nothing else changed. -/
def Sys2Proof.Claims.delivers (s : State) (v : Byte) : State := { s with response := some (.rdata v) }

/-- The state with an operation without result completed and its block as given. -/
def Sys2Proof.Claims.completesWith (s : State) (b : Block) : State := { s with block := b, response := some .nothing }

open Sys2Proof.Claims

/-! Encoding and decoding (30_encoding.md). -/

/-- Every instruction that has a word is read back from it, every operand at every value the fields admit
(30_encoding.md R53 to R61). The bit positions are the spec's own choice (D3, D4). -/
def Obligations.DecodeInvertsEncode : Prop :=
  ∀ (v : Variant) (i : Instr), i.wellFormed = true → i.availableOn v = true → decodeRequest v (encode i) = .ok i

/-- Whatever a request decodes to is an operation of the block's own variant (42_mapper_capability.md R81); what a
word decodes to has a word, and that word, whose ignored fields are zero, decodes to the same instruction. -/
def Obligations.DecodedInstructionIsTheVariantsOwn : Prop :=
  ∀ (v : Variant) (r : Request) (i : Instr), decodeRequest v r = .ok i →
    i.availableOn v = true ∧
      ((∀ c, r ≠ .pagerCommand c) → i.wellFormed = true ∧ decodeRequest v (encode i) = .ok i)

/-- The example words of 30_encoding.md R65 and R66 decode to the operations written beside them (the encoding is
the spec's own choice, D3, D4). -/
def Obligations.ExampleWordsDecode : Prop :=
  decodeMapperWord .mapper2 0x00800000#32 = .ok (.m2RdPrg 0x8000#16) ∧
  decodeMapperWord .mapper2 0x01800002#32 = .ok (.m2WrPrg 0x8000#16 0x02#8) ∧
  decodeMapperWord .mapper3 0x021FFF00#32 = .ok (.m3RdChr 0x1FFF#16) ∧
  decodeMapperWord .mapper3 0x030005AB#32 = .ok (.m3WrChr 0x0005#16 0xAB#8) ∧
  decodeMapperWord .mapper3 0x04000000#32 = .ok .m3Mirror ∧
  decodePagerWord 0x2C000000033FFF00#64 = .ok (.pgRead .prgRom (.number 3 .kb16) 0x3FFF#16) ∧
  decodePagerWord 0x4A000000000005AB#64 = .ok (.pgWrite .chrRam (.first .kb8) 0x0005#16 0xAB#8) ∧
  decodePagerWord 0x8C00000000000000#64 = .ok (.pgCount .prgRom .kb16) ∧
  decodePagerWord 0x3C00000001000000#64 = .ok (.pgRead .prgRom (.fromEnd 1 .kb16) 0x0000#16) ∧
  decodePagerWord 0x1900000000001000#64 = .ok (.pgRead .chrRom (.last .kb8) 0x0010#16)

/-- The example lines of 30_encoding.md R65 and R66 assemble to the words written beside them (the syntax is the
spec's own choice, D6). -/
def Obligations.ExampleLinesAssemble : Prop :=
  assembleLine "RD_PRG $8000" = some (.mapperWord 0x00800000#32) ∧
  assembleLine "WR_PRG $8000, #$02" = some (.mapperWord 0x01800002#32) ∧
  assembleLine "RD_CHR $1FFF" = some (.mapperWord 0x021FFF00#32) ∧
  assembleLine "WR_CHR $0005, #$AB" = some (.mapperWord 0x030005AB#32) ∧
  assembleLine "MIRROR" = some (.mapperWord 0x04000000#32) ∧
  assembleLine "PG_READ PRG_ROM, Number(3, KB16), $3FFF" = some (.pagerWord 0x2C000000033FFF00#64) ∧
  assembleLine "PG_WRITE CHR_RAM, First(KB8), $0005, #$AB" = some (.pagerWord 0x4A000000000005AB#64) ∧
  assembleLine "PG_COUNT PRG_ROM, KB16" = some (.pagerWord 0x8C00000000000000#64) ∧
  assembleLine "PG_READ PRG_ROM, FromEnd(1, KB16), $0000" = some (.pagerWord 0x3C00000001000000#64) ∧
  assembleLine "PG_READ CHR_ROM, Last(KB8), $0010" = some (.pagerWord 0x1900000000001000#64)

/-- The ignored fields decide nothing (30_encoding.md R56, R58; the spec's own choice, D5): words that agree on the
fields their operation uses decode alike. -/
def Obligations.IgnoredFieldsDecideNothing : Prop :=
  (∀ (v : Variant) (w w' : BitVec 32), w.extractLsb' 24 8 = w'.extractLsb' 24 8 →
    (w.extractLsb' 24 3 = 0b100#3 → decodeMapperWord v w = decodeMapperWord v w') ∧
    ((w.extractLsb' 24 3 = 0b000#3 ∨ w.extractLsb' 24 3 = 0b010#3) → w.extractLsb' 8 16 = w'.extractLsb' 8 16 →
      decodeMapperWord v w = decodeMapperWord v w')) ∧
  (∀ (w w' : BitVec 64), w.extractLsb' 62 2 = w'.extractLsb' 62 2 → w.extractLsb' 56 4 = w'.extractLsb' 56 4 →
    (w.extractLsb' 62 2 = 0b10#2 → decodePagerWord w = decodePagerWord w') ∧
    (w.extractLsb' 60 2 = w'.extractLsb' 60 2 → w.extractLsb' 8 16 = w'.extractLsb' 8 16 →
      (w.extractLsb' 62 2 = 0b00#2 → w.extractLsb' 24 32 = w'.extractLsb' 24 32 →
        decodePagerWord w = decodePagerWord w') ∧
      (w.extractLsb' 62 2 = 0b00#2 → w.extractLsb' 60 2 = 0b00#2 ∨ w.extractLsb' 60 2 = 0b01#2 →
        decodePagerWord w = decodePagerWord w') ∧
      (w.extractLsb' 62 2 = 0b01#2 → w.extractLsb' 60 2 = 0b00#2 ∨ w.extractLsb' 60 2 = 0b01#2 →
        w.extractLsb' 0 8 = w'.extractLsb' 0 8 → decodePagerWord w = decodePagerWord w')))

/-- Exactly the words of 30_encoding.md R62 are refused, and a refused word at a live block is refused by the step
and is no fault (the spec's own choice, D5). -/
def Obligations.RefusedWordsAreTheReservedOnes : Prop :=
  (∀ (v : Variant) (w : BitVec 32), (∃ e, decodeMapperWord v w = .error e) ↔
    (w.extractLsb' 27 5 ≠ 0#5 ∨ 5 ≤ (w.extractLsb' 24 3).toNat)) ∧
  (∀ (w : BitVec 64), (∃ e, decodePagerWord w = .error e) ↔
    (w.extractLsb' 62 2 = 0b11#2 ∨ w.extractLsb' 56 2 = 0b11#2)) ∧
  (∀ (s : State) (r : Request) (rest : List Request) (e : DecodeReject), s.block.fault = none →
    s.pending = r :: rest → decodeRequest (mapperVariant s.block.mapper) r = .error e →
    step s = .refused (.refusedEncoding e))

/-! The step, and how an operation ends. -/

/-- A step at a live block runs the instruction its next transaction decodes to, on the state with that transaction
taken from the stream (30_encoding.md R51; the stream is the model's form of it, log entry 1). -/
def Obligations.StepRunsTheDecodedInstruction : Prop :=
  ∀ (s : State) (r : Request) (rest : List Request) (i : Instr), s.block.fault = none → s.pending = r :: rest →
    decodeRequest (mapperVariant s.block.mapper) r = .ok i → step s = exec i { s with pending := rest }

/-- 00_scope.md R13: a transaction at a live block completes, or faults with no write applied and the block in the
faulted state, or is refused, which it is exactly when it is outside the encoding. -/
def Obligations.EveryOperationEndsInOneOfThreeWays : Prop :=
  ∀ (s : State) (r : Request) (rest : List Request), s.block.fault = none → s.pending = r :: rest →
    (∀ e, decodeRequest (mapperVariant s.block.mapper) r = .error e → step s = .refused (.refusedEncoding e)) ∧
    (∀ i, decodeRequest (mapperVariant s.block.mapper) r = .ok i →
      ∃ t, step s = .next t ∧ t.pending = rest ∧
        ((t.block.fault = none ∧ ∃ resp, t.response = some resp ∧ ∀ rec, resp ≠ .fault rec) ∨
          (∃ rec, rec.op = i.operation ∧ t.block = { s.block with fault := some rec } ∧
            t.response = some (.fault rec))))

/-- 60_exceptions.md R114: every fault is precise. The state after it is the state before the faulting operation with
only `fault` changed, so no operation applies part of its effect. -/
def Obligations.FaultsArePrecise : Prop :=
  ∀ (i : Instr) (s t : State) (rec : FaultRecord), exec i s = .next t → t.block.fault = some rec →
    t.block = { s.block with fault := some rec } ∧ t.pending = s.pending

/-- 60_exceptions.md R116: while `fault` is not None the block has no step, by the stream or by any instruction, so
nothing clears it and no second fault occurs; a newly constructed block has no fault. -/
def Obligations.FaultedBlockHasNoStep : Prop :=
  (∀ (s : State) (rec : FaultRecord), s.block.fault = some rec →
    (∀ t, step s ≠ .next t) ∧ ∀ (i : Instr) (t : State), exec i s ≠ .next t) ∧
  (∀ (m : Nat) (cart : CartridgeData) (b : Block), construct m cart = .ok b → b.fault = none)

/-- The table of 60_exceptions.md R108: which operation raises which kind, and that MIRROR raises none. The codes are
the spec's own choice (D11). -/
def Obligations.FaultKindsAndTheirRaisers : Prop :=
  faultCode .addressFault = 1 ∧ faultCode .pageBoundsFault = 2 ∧ faultCode .malformedImageFault = 3 ∧
  ∀ (i : Instr) (s t : State) (rec : FaultRecord), exec i s = .next t → t.block.fault = some rec →
    (recordKind rec = .addressFault → i.operation ∈ [.rdPrg, .wrPrg, .rdChr, .wrChr]) ∧
    (recordKind rec = .pageBoundsFault → i.operation ∈ [.rdPrg, .rdChr, .wrChr, .pgRead, .pgWrite]) ∧
    (recordKind rec = .malformedImageFault → i.operation ∈ [.rdPrg, .rdChr, .wrChr, .pgRead, .pgWrite, .pgCount]) ∧
    (i.operation = .wrChr → recordKind rec ≠ .addressFault →
      mapperVariant s.block.mapper = .mapper2 ∧ s.block.chrRomPages = 0)

/-- Through the mappers no offset is out of range: every PageBoundsFault of a mapper operation has the reason
BankRange (42_mapper_capability.md R86, R87; 60_exceptions.md R112, whose record is the spec's own choice, D11). -/
def Obligations.MapperFaultsAreNeverOffsetRange : Prop :=
  ∀ (i : Instr) (s t : State) (rec : FaultRecord) (id : BufferId) (page : Page) (off : Addr) (why : BoundsReason),
    i.operation ∈ [.rdPrg, .wrPrg, .rdChr, .wrChr, .mirror] → exec i s = .next t → t.block.fault = some rec →
    rec.info = .pageBounds id page off why → why = .bankRange

/-- 42_mapper_capability.md R83: under both variants RD_PRG and WR_PRG raise AddressFault, with the operation and the
whole address, exactly for an address below 0x8000. -/
def Obligations.ProgramDomainStartsAt8000 : Prop :=
  ∀ (s : State) (a : Addr) (d : Byte) (i : Instr), s.block.fault = none →
    i ∈ [.m2RdPrg a, .m2WrPrg a d, .m3RdPrg a, .m3WrPrg a d] →
    i.availableOn (mapperVariant s.block.mapper) = true →
    (a.toNat < 0x8000 → exec i s = .next (takeFault s i.operation (.address i.operation a))) ∧
    (0x8000 ≤ a.toNat → ∃ t, exec i s = .next t ∧
      ∀ rec, t.block.fault = some rec → recordKind rec ≠ .addressFault)

/-- Under both variants RD_CHR and WR_CHR raise AddressFault exactly for an address at or above 0x2000
(42_mapper_capability.md R84, where the 16-bit port is the spec's own choice, D33), also where an in-domain write is
discarded (R88, the spec's own choice, D15). -/
def Obligations.CharacterDomainEndsAt2000 : Prop :=
  ∀ (s : State) (a : Addr) (d : Byte) (i : Instr), s.block.fault = none →
    i ∈ [.m2RdChr a, .m2WrChr a d, .m3RdChr a, .m3WrChr a d] →
    i.availableOn (mapperVariant s.block.mapper) = true →
    (0x2000 ≤ a.toNat → exec i s = .next (takeFault s i.operation (.address i.operation a))) ∧
    (a.toNat < 0x2000 → ∃ t, exec i s = .next t ∧
      ∀ rec, t.block.fault = some rec → recordKind rec ≠ .addressFault)

/-! The Mapper2 operations (43_mapper2_uxrom.md). -/

/-- M2.RD_PRG (43_mapper2_uxrom.md R92): the byte of bank `prg_0` in the low window, of the last bank in the high
one, and its faults. The fault records' fields are the spec's own choice (D11). -/
def Obligations.Mapper2ReadsProgramByte : Prop :=
  ∀ (s : State) (prg0 : BitVec 4) (a : Addr), s.block.mapper = .mapper2 prg0 → s.block.fault = none →
    (0x8000 ≤ a.toNat → a.toNat ≤ 0xBFFF → s.block.prgRom.length % 16384 = 0 →
      prg0.toNat < s.block.prgRom.length / 16384 →
      exec (.m2RdPrg a) s =
        .next (delivers s (s.block.prgRom.read (prg0.toNat * 16384 + (a.toNat - 0x8000))))) ∧
    (0xC000 ≤ a.toNat → s.block.prgRom.length % 16384 = 0 → s.block.prgRom.length ≠ 0 →
      exec (.m2RdPrg a) s =
        .next (delivers s (s.block.prgRom.read (s.block.prgRom.length - 16384 + (a.toNat - 0xC000))))) ∧
    (a.toNat < 0x8000 → exec (.m2RdPrg a) s = .next (takeFault s .rdPrg (.address .rdPrg a))) ∧
    (0x8000 ≤ a.toNat → s.block.prgRom.length % 16384 ≠ 0 →
      exec (.m2RdPrg a) s =
        .next (takeFault s .rdPrg (.malformedImage .prgRom s.block.prgRom.length 16384))) ∧
    (0x8000 ≤ a.toNat → a.toNat ≤ 0xBFFF → s.block.prgRom.length % 16384 = 0 →
      s.block.prgRom.length / 16384 ≤ prg0.toNat →
      exec (.m2RdPrg a) s =
        .next (takeFault s .rdPrg
          (.pageBounds .prgRom (.number prg0.toNat .kb16) (BitVec.ofNat 16 (a.toNat - 0x8000)) .bankRange))) ∧
    (0xC000 ≤ a.toNat → s.block.prgRom.length = 0 →
      exec (.m2RdPrg a) s =
        .next (takeFault s .rdPrg
          (.pageBounds .prgRom (.last .kb16) (BitVec.ofNat 16 (a.toNat - 0xC000)) .bankRange)))

/-- M2.WR_PRG (43_mapper2_uxrom.md R93): the register takes the low 4 bits of the data, whatever the address in the
domain and whatever PRG_ROM is, and nothing else changes; below 0x8000 it faults and the register is kept. -/
def Obligations.Mapper2SelectsBank : Prop :=
  ∀ (s : State) (prg0 : BitVec 4) (a : Addr) (d : Byte), s.block.mapper = .mapper2 prg0 → s.block.fault = none →
    (0x8000 ≤ a.toNat →
      exec (.m2WrPrg a d) s =
        .next (completesWith s { s.block with mapper := .mapper2 ((d &&& 0x0F#8).setWidth 4) })) ∧
    (a.toNat < 0x8000 → exec (.m2WrPrg a d) s = .next (takeFault s .wrPrg (.address .wrPrg a)))

/-- M2.RD_CHR (43_mapper2_uxrom.md R94, R91): byte A of CHR_RAM where `chr_rom_pages` is 0, of CHR_ROM where it is
not, and its faults. That the fixed page is bank 0 is the spec's own choice (D17), as are the records' fields (D11). -/
def Obligations.Mapper2ReadsCharacterByte : Prop :=
  ∀ (s : State) (prg0 : BitVec 4) (a : Addr), s.block.mapper = .mapper2 prg0 → s.block.fault = none →
    (a.toNat < 0x2000 → s.block.chrRomPages = 0 → s.block.chrRam.length % 8192 = 0 → s.block.chrRam.length ≠ 0 →
      exec (.m2RdChr a) s = .next (delivers s (s.block.chrRam.read a.toNat))) ∧
    (a.toNat < 0x2000 → s.block.chrRomPages ≠ 0 → s.block.chrRom.length % 8192 = 0 → s.block.chrRom.length ≠ 0 →
      exec (.m2RdChr a) s = .next (delivers s (s.block.chrRom.read a.toNat))) ∧
    (0x2000 ≤ a.toNat → exec (.m2RdChr a) s = .next (takeFault s .rdChr (.address .rdChr a))) ∧
    (a.toNat < 0x2000 → s.block.chrRomPages = 0 → s.block.chrRam.length % 8192 ≠ 0 →
      exec (.m2RdChr a) s = .next (takeFault s .rdChr (.malformedImage .chrRam s.block.chrRam.length 8192))) ∧
    (a.toNat < 0x2000 → s.block.chrRomPages ≠ 0 → s.block.chrRom.length % 8192 ≠ 0 →
      exec (.m2RdChr a) s = .next (takeFault s .rdChr (.malformedImage .chrRom s.block.chrRom.length 8192))) ∧
    (a.toNat < 0x2000 → s.block.chrRomPages = 0 → s.block.chrRam.length = 0 →
      exec (.m2RdChr a) s = .next (takeFault s .rdChr (.pageBounds .chrRam (.first .kb8) a .bankRange))) ∧
    (a.toNat < 0x2000 → s.block.chrRomPages ≠ 0 → s.block.chrRom.length = 0 →
      exec (.m2RdChr a) s = .next (takeFault s .rdChr (.pageBounds .chrRom (.first .kb8) a .bankRange)))

/-- M2.WR_CHR (43_mapper2_uxrom.md R95): byte A of CHR_RAM where `chr_rom_pages` is 0, else discarded with no Pager
access (D16), and its faults, the domain's first (D15). The records' fields are the spec's own choice (D11). -/
def Obligations.Mapper2WritesCharacterByte : Prop :=
  ∀ (s : State) (prg0 : BitVec 4) (a : Addr) (d : Byte), s.block.mapper = .mapper2 prg0 → s.block.fault = none →
    (a.toNat < 0x2000 → s.block.chrRomPages = 0 → s.block.chrRam.length % 8192 = 0 → s.block.chrRam.length ≠ 0 →
      exec (.m2WrChr a d) s =
        .next (completesWith s { s.block with chrRam := s.block.chrRam.write a.toNat d })) ∧
    (a.toNat < 0x2000 → s.block.chrRomPages ≠ 0 → exec (.m2WrChr a d) s = .next (completesWith s s.block)) ∧
    (0x2000 ≤ a.toNat → exec (.m2WrChr a d) s = .next (takeFault s .wrChr (.address .wrChr a))) ∧
    (a.toNat < 0x2000 → s.block.chrRomPages = 0 → s.block.chrRam.length % 8192 ≠ 0 →
      exec (.m2WrChr a d) s = .next (takeFault s .wrChr (.malformedImage .chrRam s.block.chrRam.length 8192))) ∧
    (a.toNat < 0x2000 → s.block.chrRomPages = 0 → s.block.chrRam.length = 0 →
      exec (.m2WrChr a d) s = .next (takeFault s .wrChr (.pageBounds .chrRam (.first .kb8) a .bankRange)))

/-- 43_mapper2_uxrom.md R90, the automaton: construction leaves bank 0; a write into 0x8000 to 0xFFFF with value v
sets `prg_0` to v & 0x0F and changes no other state of the block, from every value of the register; no other
instruction changes the register. -/
def Obligations.Mapper2IsASingleRegisterAutomaton : Prop :=
  (∀ (cart : CartridgeData) (b : Block), construct 2 cart = .ok b → b.mapper = .mapper2 0#4) ∧
  (∀ (s : State) (prg0 : BitVec 4) (a : Addr) (v : Byte), s.block.mapper = .mapper2 prg0 → s.block.fault = none →
    0x8000 ≤ a.toNat →
    ∃ t, exec (.m2WrPrg a v) s = .next t ∧ t.block = { s.block with mapper := .mapper2 ((v &&& 0x0F#8).setWidth 4) }) ∧
  (∀ (s t : State) (prg0 : BitVec 4) (i : Instr), s.block.mapper = .mapper2 prg0 → exec i s = .next t →
    (∀ a v, i = .m2WrPrg a v → a.toNat < 0x8000) → t.block.mapper = .mapper2 prg0)

/-- Bank selection is seen by the very next read (43_mapper2_uxrom.md R97; 70_reset_and_hazards.md R131): after
writing d, the low window reads bank d & 0x0F or faults where there is no such bank, and the high window still reads
the last bank. -/
def Obligations.Mapper2BankIsSeenByTheNextRead : Prop :=
  ∀ (s : State) (prg0 : BitVec 4) (a a' : Addr) (d : Byte), s.block.mapper = .mapper2 prg0 → s.block.fault = none →
    0x8000 ≤ a.toNat → 0x8000 ≤ a'.toNat → s.block.prgRom.length % 16384 = 0 → s.block.prgRom.length ≠ 0 →
    ∃ t, exec (.m2WrPrg a d) s = .next t ∧
      (a'.toNat ≤ 0xBFFF → d.toNat % 16 < s.block.prgRom.length / 16384 →
        exec (.m2RdPrg a') t =
          .next (delivers t (s.block.prgRom.read (d.toNat % 16 * 16384 + (a'.toNat - 0x8000))))) ∧
      (a'.toNat ≤ 0xBFFF → s.block.prgRom.length / 16384 ≤ d.toNat % 16 →
        ∃ u rec, exec (.m2RdPrg a') t = .next u ∧ u.block.fault = some rec ∧ recordKind rec = .pageBoundsFault) ∧
      (0xC000 ≤ a'.toNat →
        exec (.m2RdPrg a') t =
          .next (delivers t (s.block.prgRom.read (s.block.prgRom.length - 16384 + (a'.toNat - 0xC000)))))

/-- 20_memory.md R47: under Mapper2 with `chr_rom_pages` = 0, a completed WR_CHR to A, then any session without a
fault and without another store to that byte, then an RD_CHR of A returns the byte written. -/
def Obligations.CharacterRamRoundTrip : Prop :=
  ∀ (s t u : State) (prg0 : BitVec 4) (a : Addr) (d : Byte) (between : List Instr),
    s.block.mapper = .mapper2 prg0 → s.block.chrRomPages = 0 →
    exec (.m2WrChr a d) s = .next t → t.block.fault = none →
    (∀ i ∈ between, storedByte s.block i ≠ some (.chrRam, a.toNat)) →
    runInstrs between t = .next u → u.block.fault = none →
    exec (.m2RdChr a) u = .next (delivers u d)

/-! The Mapper3 operations (44_mapper3_cnrom.md). -/

/-- M3.RD_PRG (44_mapper3_cnrom.md R100): the byte of the first bank in the low window, of the last in the high one,
and its faults. The fault records' fields are the spec's own choice (D11). -/
def Obligations.Mapper3ReadsProgramByte : Prop :=
  ∀ (s : State) (chr0 : BitVec 8) (a : Addr), s.block.mapper = .mapper3 chr0 → s.block.fault = none →
    (0x8000 ≤ a.toNat → a.toNat ≤ 0xBFFF → s.block.prgRom.length % 16384 = 0 → s.block.prgRom.length ≠ 0 →
      exec (.m3RdPrg a) s = .next (delivers s (s.block.prgRom.read (a.toNat - 0x8000)))) ∧
    (0xC000 ≤ a.toNat → s.block.prgRom.length % 16384 = 0 → s.block.prgRom.length ≠ 0 →
      exec (.m3RdPrg a) s =
        .next (delivers s (s.block.prgRom.read (s.block.prgRom.length - 16384 + (a.toNat - 0xC000))))) ∧
    (a.toNat < 0x8000 → exec (.m3RdPrg a) s = .next (takeFault s .rdPrg (.address .rdPrg a))) ∧
    (0x8000 ≤ a.toNat → s.block.prgRom.length % 16384 ≠ 0 →
      exec (.m3RdPrg a) s =
        .next (takeFault s .rdPrg (.malformedImage .prgRom s.block.prgRom.length 16384))) ∧
    (0x8000 ≤ a.toNat → a.toNat ≤ 0xBFFF → s.block.prgRom.length = 0 →
      exec (.m3RdPrg a) s =
        .next (takeFault s .rdPrg
          (.pageBounds .prgRom (.first .kb16) (BitVec.ofNat 16 (a.toNat - 0x8000)) .bankRange))) ∧
    (0xC000 ≤ a.toNat → s.block.prgRom.length = 0 →
      exec (.m3RdPrg a) s =
        .next (takeFault s .rdPrg
          (.pageBounds .prgRom (.last .kb16) (BitVec.ofNat 16 (a.toNat - 0xC000)) .bankRange)))

/-- M3.WR_PRG (44_mapper3_cnrom.md R101): the register takes all 8 bits of the data and nothing else changes; below
0x8000 it faults and the register is kept. -/
def Obligations.Mapper3SelectsBank : Prop :=
  ∀ (s : State) (chr0 : BitVec 8) (a : Addr) (d : Byte), s.block.mapper = .mapper3 chr0 → s.block.fault = none →
    (0x8000 ≤ a.toNat →
      exec (.m3WrPrg a d) s = .next (completesWith s { s.block with mapper := .mapper3 d })) ∧
    (a.toNat < 0x8000 → exec (.m3WrPrg a d) s = .next (takeFault s .wrPrg (.address .wrPrg a)))

/-- M3.RD_CHR (44_mapper3_cnrom.md R102): byte A of CHR_ROM bank `chr_0`, and its faults. The fault records' fields
are the spec's own choice (D11). -/
def Obligations.Mapper3ReadsCharacterByte : Prop :=
  ∀ (s : State) (chr0 : BitVec 8) (a : Addr), s.block.mapper = .mapper3 chr0 → s.block.fault = none →
    (a.toNat < 0x2000 → s.block.chrRom.length % 8192 = 0 → chr0.toNat < s.block.chrRom.length / 8192 →
      exec (.m3RdChr a) s = .next (delivers s (s.block.chrRom.read (chr0.toNat * 8192 + a.toNat)))) ∧
    (0x2000 ≤ a.toNat → exec (.m3RdChr a) s = .next (takeFault s .rdChr (.address .rdChr a))) ∧
    (a.toNat < 0x2000 → s.block.chrRom.length % 8192 ≠ 0 →
      exec (.m3RdChr a) s = .next (takeFault s .rdChr (.malformedImage .chrRom s.block.chrRom.length 8192))) ∧
    (a.toNat < 0x2000 → s.block.chrRom.length % 8192 = 0 → s.block.chrRom.length / 8192 ≤ chr0.toNat →
      exec (.m3RdChr a) s =
        .next (takeFault s .rdChr (.pageBounds .chrRom (.number chr0.toNat .kb8) a .bankRange)))

/-- M3.WR_CHR (44_mapper3_cnrom.md R103): in the domain the write is dropped and completes, whatever the buffers and
the register are (D16); outside it faults (D15). -/
def Obligations.Mapper3DiscardsCharacterWrites : Prop :=
  ∀ (s : State) (chr0 : BitVec 8) (a : Addr) (d : Byte), s.block.mapper = .mapper3 chr0 → s.block.fault = none →
    (a.toNat < 0x2000 → exec (.m3WrChr a d) s = .next (completesWith s s.block)) ∧
    (0x2000 ≤ a.toNat → exec (.m3WrChr a d) s = .next (takeFault s .wrChr (.address .wrChr a)))

/-- 44_mapper3_cnrom.md R99, the automaton: construction leaves bank 0; a write into 0x8000 to 0xFFFF with value v
sets `chr_0` to v, unmasked, and affects only `chr_0`, from every value of the register; no other instruction changes
the register. -/
def Obligations.Mapper3IsASingleRegisterAutomaton : Prop :=
  (∀ (cart : CartridgeData) (b : Block), construct 3 cart = .ok b → b.mapper = .mapper3 0#8) ∧
  (∀ (s : State) (chr0 : BitVec 8) (a : Addr) (v : Byte), s.block.mapper = .mapper3 chr0 → s.block.fault = none →
    0x8000 ≤ a.toNat →
    ∃ t, exec (.m3WrPrg a v) s = .next t ∧ t.block = { s.block with mapper := .mapper3 v }) ∧
  (∀ (s t : State) (chr0 : BitVec 8) (i : Instr), s.block.mapper = .mapper3 chr0 → exec i s = .next t →
    (∀ a v, i = .m3WrPrg a v → a.toNat < 0x8000) → t.block.mapper = .mapper3 chr0)

/-- 44_mapper3_cnrom.md R105: a value of the register is stored unmasked and faults at the write never; where it
names no bank, the first RD_CHR that follows raises PageBoundsFault, a WR_CHR raises nothing, and a later in-range
WR_PRG made before any RD_CHR clears it. -/
def Obligations.UnmaskedRegisterFaultsAtTheRead : Prop :=
  ∀ (s : State) (chr0 : BitVec 8) (a a' : Addr) (d d' e : Byte), s.block.mapper = .mapper3 chr0 →
    s.block.fault = none → 0x8000 ≤ a.toNat → a'.toNat < 0x2000 → s.block.chrRom.length % 8192 = 0 →
    s.block.chrRom.length / 8192 ≤ d.toNat →
    ∃ t, exec (.m3WrPrg a d) s = .next t ∧ t.block.fault = none ∧ t.block.mapper = .mapper3 d ∧
      (∃ u rec, exec (.m3RdChr a') t = .next u ∧ u.block.fault = some rec ∧ recordKind rec = .pageBoundsFault) ∧
      (∃ u, exec (.m3WrChr a' e) t = .next u ∧ u.block = t.block) ∧
      (∃ u, exec (.m3WrPrg a d') t = .next u ∧ u.block.fault = none ∧
        (d'.toNat < s.block.chrRom.length / 8192 →
          exec (.m3RdChr a') u = .next (delivers u (s.block.chrRom.read (d'.toNat * 8192 + a'.toNat)))))

/-- Under Mapper3 the program space is a fixed function of PRG_ROM (44_mapper3_cnrom.md R107, which the spec derives
from R100): two blocks that differ in `chr_0` alone answer an RD_PRG alike. -/
def Obligations.Mapper3ProgramReadsIgnoreTheRegister : Prop :=
  ∀ (s t : State) (chr0 chr0' : BitVec 8) (a : Addr), s.block.mapper = .mapper3 chr0 →
    exec (.m3RdPrg a) s = .next t →
    ∃ t', exec (.m3RdPrg a) { s with block := { s.block with mapper := .mapper3 chr0' } } = .next t' ∧
      t'.response = t.response ∧ t'.block.fault = t.block.fault

/-! Both mappers. -/

/-- MIRROR returns the header's value unchanged, under both variants, and changes nothing (43_mapper2_uxrom.md R96,
44_mapper3_cnrom.md R104); it never faults, and it answers the same at every point of a session. -/
def Obligations.MirrorReturnsTheHeader : Prop :=
  (∀ (s : State) (i : Instr), i ∈ [.m2Mirror, .m3Mirror] → s.block.fault = none →
    i.availableOn (mapperVariant s.block.mapper) = true →
    exec i s = .next { s with response := some (.mirroring s.block.mirroring) }) ∧
  (∀ (s t : State) (i : Instr) (session : List Instr), i ∈ [.m2Mirror, .m3Mirror] →
    i.availableOn (mapperVariant s.block.mapper) = true → runInstrs session s = .next t → t.block.fault = none →
    exec i t = .next { t with response := some (.mirroring s.block.mirroring) })

/-- The two bus spaces are independent but for Mapper3's register (20_memory.md R49): no completed character-space
operation changes what a program-space read answers; under Mapper2 a bank-select write changes neither what the high
window nor what a character-space read answers; under Mapper3 it selects the bank the next RD_CHR reads. -/
def Obligations.ProgramAndCharacterSpacesAreIndependent : Prop :=
  (∀ (i j : Instr) (s t u : State), i.operation ∈ [.rdChr, .wrChr] → j.operation = .rdPrg → exec i s = .next t →
    t.block.fault = none → exec j s = .next u → ∃ u', exec j t = .next u' ∧ u'.response = u.response) ∧
  (∀ (a a' : Addr) (d : Byte) (j : Instr) (s t u : State), (j = .m2RdChr a' ∨ (j = .m2RdPrg a' ∧ 0xC000 ≤ a'.toNat)) →
    exec (.m2WrPrg a d) s = .next t → t.block.fault = none → exec j s = .next u →
    ∃ u', exec j t = .next u' ∧ u'.response = u.response) ∧
  (∀ (a a' : Addr) (d : Byte) (s t : State), exec (.m3WrPrg a d) s = .next t → t.block.fault = none →
    a'.toNat < 0x2000 → s.block.chrRom.length % 8192 = 0 → d.toNat < s.block.chrRom.length / 8192 →
    exec (.m3RdChr a') t = .next (delivers t (s.block.chrRom.read (d.toNat * 8192 + a'.toNat))))

/-- The mapper operations write no ROM, and CHR_RAM only by Mapper2 WR_CHR with `chr_rom_pages` = 0
(10_state.md R23). -/
def Obligations.MapperOperationsWriteNoRom : Prop :=
  ∀ (i : Instr) (s t : State), i.operation ∈ [.rdPrg, .wrPrg, .rdChr, .wrChr, .mirror] → exec i s = .next t →
    t.block.prgRom = s.block.prgRom ∧ t.block.chrRom = s.block.chrRom ∧
      (t.block.chrRam ≠ s.block.chrRam → s.block.chrRomPages = 0 ∧ ∃ a d, i = .m2WrChr a d)

/-! The Pager (41_pager.md). -/

/-- The four page sizes in bytes (00_scope.md R7). -/
def Obligations.PageSizesInBytes : Prop :=
  sizeBytes .kb1 = 1024 ∧ sizeBytes .kb4 = 4096 ∧ sizeBytes .kb8 = 8192 ∧ sizeBytes .kb16 = 16384

/-- 41_pager.md R68: `page_count` divides exactly or raises MalformedImageFault, for a buffer of length 0 it is 0,
and the check is made against the size of the access only: a resolution at a size that divides the length is never
malformed, one at a size that does not always is. -/
def Obligations.PageCountDividesExactlyOrFaults : Prop :=
  ∀ (b : Block) (id : BufferId) (s : PageSizeKb),
    ((b.buffer id).length % sizeBytes s = 0 →
      pageCount b id s = .ok ((b.buffer id).length / sizeBytes s) ∧
      ∀ (page : Page) (off : Addr) (e : FaultInfo), pageSize page = s → pagerIndex b id page off = .error e →
        faultKind e = .pageBoundsFault) ∧
    ((b.buffer id).length % sizeBytes s ≠ 0 →
      pageCount b id s = .error (.malformedImage id (b.buffer id).length (sizeBytes s)) ∧
      ∀ (page : Page) (off : Addr), pageSize page = s →
        pagerIndex b id page off = .error (.malformedImage id (b.buffer id).length (sizeBytes s))) ∧
    ((b.buffer id).length = 0 → pageCount b id s = .ok 0)

/-- The selector laws (41_pager.md R69 to R71, R79, which the spec derives): First is Number 0, Last is Number
(page_count - 1), FromEnd n is Number (page_count - 1 - n), FromEnd 0 is Last; where the right side does not exist
the left side raises PageBoundsFault (the spec's own choice, D14). -/
def Obligations.SelectorsReduceToNumbers : Prop :=
  ∀ (b : Block) (id : BufferId) (s : PageSizeKb) (off : Addr),
    SameResolution (pagerIndex b id (.first s) off) (pagerIndex b id (.number 0 s) off) ∧
    SameResolution (pagerIndex b id (.fromEnd 0 s) off) (pagerIndex b id (.last s) off) ∧
    ∀ pc, pageCount b id s = .ok pc →
      (1 ≤ pc → SameResolution (pagerIndex b id (.last s) off) (pagerIndex b id (.number (pc - 1) s) off)) ∧
      (∀ n, n < pc →
        SameResolution (pagerIndex b id (.fromEnd n s) off) (pagerIndex b id (.number (pc - 1 - n) s) off)) ∧
      (pc = 0 → pagerIndex b id (.last s) off = .error (.pageBounds id (.last s) off .bankRange)) ∧
      (∀ n, pc ≤ n → pagerIndex b id (.fromEnd n s) off = .error (.pageBounds id (.fromEnd n s) off .bankRange))

/-- A resolved index is `n * s + off` for a bank below the page count and an offset below the size, lies in the
buffer, inside page n, and is reached by no other bank and offset at that size (41_pager.md R73, which the spec
derives). -/
def Obligations.ResolvedIndexIsInItsPage : Prop :=
  (∀ (b : Block) (id : BufferId) (page : Page) (off : Addr) (i : Nat), pagerIndex b id page off = .ok i →
    ∃ n, SelectsBank ((b.buffer id).length / sizeBytes (pageSize page)) page n ∧
      n < (b.buffer id).length / sizeBytes (pageSize page) ∧ off.toNat < sizeBytes (pageSize page) ∧
      i = n * sizeBytes (pageSize page) + off.toNat ∧ i < (b.buffer id).length ∧
      n * sizeBytes (pageSize page) ≤ i ∧ i < (n + 1) * sizeBytes (pageSize page)) ∧
  (∀ (b : Block) (id : BufferId) (s : PageSizeKb) (n n' : Nat) (off off' : Addr) (i : Nat),
    pagerIndex b id (.number n s) off = .ok i → pagerIndex b id (.number n' s) off' = .ok i → n = n' ∧ off = off')

/-- PG_READ (41_pager.md R76): the byte at `n * size + O` of the selected page, and its faults in the order of R72,
the bank's before the offset's (the spec's own choice, D13). The records' fields are the spec's own choice (D11). -/
def Obligations.PagerReadsSelectedByte : Prop :=
  ∀ (s : State) (id : BufferId) (page : Page) (off : Addr), s.block.fault = none →
    (∀ n, (s.block.buffer id).length % sizeBytes (pageSize page) = 0 →
      SelectsBank ((s.block.buffer id).length / sizeBytes (pageSize page)) page n →
      n < (s.block.buffer id).length / sizeBytes (pageSize page) → off.toNat < sizeBytes (pageSize page) →
      exec (.pgRead id page off) s =
        .next (delivers s ((s.block.buffer id).read (n * sizeBytes (pageSize page) + off.toNat)))) ∧
    ((s.block.buffer id).length % sizeBytes (pageSize page) ≠ 0 →
      exec (.pgRead id page off) s =
        .next (takeFault s .pgRead
          (.malformedImage id (s.block.buffer id).length (sizeBytes (pageSize page))))) ∧
    ((s.block.buffer id).length % sizeBytes (pageSize page) = 0 →
      (∀ n, SelectsBank ((s.block.buffer id).length / sizeBytes (pageSize page)) page n →
        (s.block.buffer id).length / sizeBytes (pageSize page) ≤ n) →
      exec (.pgRead id page off) s = .next (takeFault s .pgRead (.pageBounds id page off .bankRange))) ∧
    (∀ n, (s.block.buffer id).length % sizeBytes (pageSize page) = 0 →
      SelectsBank ((s.block.buffer id).length / sizeBytes (pageSize page)) page n →
      n < (s.block.buffer id).length / sizeBytes (pageSize page) → sizeBytes (pageSize page) ≤ off.toNat →
      exec (.pgRead id page off) s = .next (takeFault s .pgRead (.pageBounds id page off .offsetRange)))

/-- PG_WRITE (41_pager.md R77): the byte at `n * size + O` of the selected page of any buffer, ROM included (the
spec's own choice, D31), takes the data and nothing else changes; its faults are PG_READ's, with the block as it was.
The records' fields are the spec's own choice (D11), as is the order of the checks (D13). -/
def Obligations.PagerWritesSelectedByte : Prop :=
  ∀ (s : State) (id : BufferId) (page : Page) (off : Addr) (v : Byte), s.block.fault = none →
    (∀ n, (s.block.buffer id).length % sizeBytes (pageSize page) = 0 →
      SelectsBank ((s.block.buffer id).length / sizeBytes (pageSize page)) page n →
      n < (s.block.buffer id).length / sizeBytes (pageSize page) → off.toNat < sizeBytes (pageSize page) →
      exec (.pgWrite id page off v) s =
        .next (completesWith s (s.block.setBuffer id
          ((s.block.buffer id).write (n * sizeBytes (pageSize page) + off.toNat) v)))) ∧
    ((s.block.buffer id).length % sizeBytes (pageSize page) ≠ 0 →
      exec (.pgWrite id page off v) s =
        .next (takeFault s .pgWrite
          (.malformedImage id (s.block.buffer id).length (sizeBytes (pageSize page))))) ∧
    ((s.block.buffer id).length % sizeBytes (pageSize page) = 0 →
      (∀ n, SelectsBank ((s.block.buffer id).length / sizeBytes (pageSize page)) page n →
        (s.block.buffer id).length / sizeBytes (pageSize page) ≤ n) →
      exec (.pgWrite id page off v) s = .next (takeFault s .pgWrite (.pageBounds id page off .bankRange))) ∧
    (∀ n, (s.block.buffer id).length % sizeBytes (pageSize page) = 0 →
      SelectsBank ((s.block.buffer id).length / sizeBytes (pageSize page)) page n →
      n < (s.block.buffer id).length / sizeBytes (pageSize page) → sizeBytes (pageSize page) ≤ off.toNat →
      exec (.pgWrite id page off v) s = .next (takeFault s .pgWrite (.pageBounds id page off .offsetRange)))

/-- PG_COUNT (41_pager.md R78): the exact quotient, of any size, or MalformedImageFault; nothing else. The record's
fields are the spec's own choice (D11). -/
def Obligations.PagerCountsPages : Prop :=
  ∀ (s : State) (id : BufferId) (size : PageSizeKb), s.block.fault = none →
    ((s.block.buffer id).length % sizeBytes size = 0 →
      exec (.pgCount id size) s =
        .next { s with response := some (.count ((s.block.buffer id).length / sizeBytes size)) }) ∧
    ((s.block.buffer id).length % sizeBytes size ≠ 0 →
      exec (.pgCount id size) s =
        .next (takeFault s .pgCount (.malformedImage id (s.block.buffer id).length (sizeBytes size))))

/-- A completed PG_WRITE is read back by every selector that names the same byte, and every other byte of every
buffer still reads as before (41_pager.md R80, which the spec derives). -/
def Obligations.PagerWriteIsReadBack : Prop :=
  ∀ (s t : State) (id : BufferId) (page : Page) (off : Addr) (v : Byte) (i : Nat),
    exec (.pgWrite id page off v) s = .next t → t.block.fault = none → pagerIndex s.block id page off = .ok i →
    ∀ (id' : BufferId) (page' : Page) (off' : Addr) (j : Nat), pagerIndex s.block id' page' off' = .ok j →
      exec (.pgRead id' page' off') t =
        .next (delivers t (if id' = id ∧ j = i then v else (s.block.buffer id').read j))

/-! Frames. -/

/-- The frame of RD_PRG, RD_CHR, MIRROR, PG_READ and PG_COUNT, of both variants (20_memory.md R38, which the spec
derives): a next state has the block as it was, but for the record of a fault, and every byte as it was. -/
def Obligations.ReadsAndQueriesChangeNothing : Prop :=
  ∀ (i : Instr) (s t : State), i.operation ∈ [.rdPrg, .rdChr, .mirror, .pgRead, .pgCount] → exec i s = .next t →
    t.pending = s.pending ∧ (t.block = s.block ∨ ∃ rec, t.block = { s.block with fault := some rec }) ∧
      ∀ (id : BufferId) (j : Nat), (t.block.buffer id).read j = (s.block.buffer id).read j

/-- The frame of the bank-select writes M2.WR_PRG and M3.WR_PRG (43_mapper2_uxrom.md R93, 44_mapper3_cnrom.md R101):
besides the register and the fault field nothing changes, the variant is kept, and a write that faults keeps the
register. -/
def Obligations.BankSelectChangesOnlyTheRegister : Prop :=
  ∀ (i : Instr) (s t : State), i.operation = .wrPrg → exec i s = .next t →
    t.pending = s.pending ∧ t.block = { s.block with mapper := t.block.mapper, fault := t.block.fault } ∧
      mapperVariant t.block.mapper = mapperVariant s.block.mapper ∧
      (t.block.fault ≠ none → t.block.mapper = s.block.mapper) ∧
      ∀ (id : BufferId) (j : Nat), (t.block.buffer id).read j = (s.block.buffer id).read j

/-- The frame of M2.WR_CHR and M3.WR_CHR (43_mapper2_uxrom.md R95, 44_mapper3_cnrom.md R103): the register, the
header, both ROMs and CHR_RAM's length are kept; every byte of CHR_RAM but the one at the index M2.WR_CHR resolves
reads as before, and every byte does where the write is discarded. That a length is fixed (D18) and that a discarded
write consults no Pager (D16) are the spec's own choices. -/
def Obligations.CharacterWriteChangesOneByte : Prop :=
  ∀ (a : Addr) (d : Byte) (i : Instr) (s t : State), i ∈ [.m2WrChr a d, .m3WrChr a d] → exec i s = .next t →
    t.pending = s.pending ∧
      t.block = { s.block with chrRam := t.block.chrRam, fault := t.block.fault } ∧
      t.block.chrRam.length = s.block.chrRam.length ∧
      (∀ k, pagerIndex s.block .chrRam mapper2ChrPage a = .ok k →
        ∀ j, j ≠ k → t.block.chrRam.read j = s.block.chrRam.read j) ∧
      ((i = .m3WrChr a d ∨ s.block.chrRomPages ≠ 0 ∨ t.block.fault ≠ none) →
        ∀ j, t.block.chrRam.read j = s.block.chrRam.read j)

/-- The frame of PG_WRITE (41_pager.md R77, R75): the register, the header, the lengths and the two other buffers
are kept, and in its own buffer every byte but the one at the index it resolves reads as before. That a length is
fixed (D18) and that any buffer can be written (D31) are the spec's own choices. -/
def Obligations.PagerWriteChangesOneByte : Prop :=
  ∀ (id : BufferId) (page : Page) (off : Addr) (v : Byte) (s t : State), exec (.pgWrite id page off v) s = .next t →
    t.pending = s.pending ∧ t.block.fixture = s.block.fixture ∧ t.block.mapper = s.block.mapper ∧
      (∀ id', id' ≠ id → t.block.buffer id' = s.block.buffer id') ∧
      (∀ k, pagerIndex s.block id page off = .ok k →
        ∀ j, j ≠ k → (t.block.buffer id).read j = (s.block.buffer id).read j) ∧
      (t.block.fault ≠ none → t.block.buffer id = s.block.buffer id)

/-- Over all instructions: a byte changes only where the instruction's own store goes, as `storedByte` computes it
with the meanings' own index function, and no length changes (10_state.md R22, R23; that a length is fixed is the
spec's own choice, D18). -/
def Obligations.BytesChangeOnlyWhereStored : Prop :=
  ∀ (i : Instr) (s t : State), exec i s = .next t → ∀ id : BufferId,
    (t.block.buffer id).length = (s.block.buffer id).length ∧
      ∀ j : Nat, storedByte s.block i ≠ some (id, j) → (t.block.buffer id).read j = (s.block.buffer id).read j

/-- Repeating a completed operation changes nothing more and answers the same: reads are repeatable and WR_PRG is
idempotent (20_memory.md R38, which the spec derives), and so are the stores. -/
def Obligations.CompletedOperationsAreRepeatable : Prop :=
  ∀ (i : Instr) (s t : State), exec i s = .next t → t.block.fault = none → exec i t = .next t

/-! Invariants, construction, safety. -/

/-- Every step keeps the buffers' canonical form, the model's own invariant (log entry 4). -/
def Obligations.StepKeepsBuffersCanonical : Prop :=
  ∀ (s t : State), s.block.wf = true → step s = .next t → t.block.wf = true

/-- Every step keeps what construction fixed: the variant, both header fields and the three lengths (10_state.md
R16, R20, R21, R22; that the lengths are fixed for the session is the spec's own choice, D18). -/
def Obligations.StepKeepsTheFixture : Prop :=
  ∀ (s t : State), step s = .next t → t.block.fixture = s.block.fixture

/-- Construction (70_reset_and_hazards.md R126): the register at 0, no fault, everything else as supplied and
unchecked; any `mapper_id` but 2 and 3 is refused (42_mapper_capability.md R82, the spec's own choice, D21). -/
def Obligations.ConstructionTakesTheCartridge : Prop :=
  ∀ (cart : CartridgeData),
    construct 2 cart =
      .ok { mapper := .mapper2 0#4, prgRom := cart.prgRom, chrRom := cart.chrRom, chrRam := cart.chrRam,
            mirroring := cart.mirroring, chrRomPages := cart.chrRomPages, fault := none } ∧
    construct 3 cart =
      .ok { mapper := .mapper3 0#8, prgRom := cart.prgRom, chrRom := cart.chrRom, chrRam := cart.chrRam,
            mirroring := cart.mirroring, chrRomPages := cart.chrRomPages, fault := none } ∧
    ∀ m, m ≠ 2 → m ≠ 3 → construct m cart = .error (.unsupportedMapper m)

/-- The model's State.reset is a constructed Mapper2 block with three empty buffers, the model's choice of arguments
(log entry 3), with no transaction issued (log entries 1 and 2); its buffers are canonical. -/
def Obligations.ResetIsAConstructedBlock : Prop :=
  construct Config.resetMapperId
      { prgRom := Buffer.atReset, chrRom := Buffer.atReset, chrRam := Buffer.atReset,
        mirroring := Config.resetMirroring, chrRomPages := Config.resetChrRomPages } = .ok State.reset.block ∧
  State.reset = sessionOf State.reset.block [] ∧ State.reset.block.wf = true ∧
  State.reset.block.mapper = .mapper2 0#4 ∧ State.reset.block.fault = none ∧
  mapperVariant State.reset.block.mapper = Config.resetVariant

/-- A safe session never faults (70_reset_and_hazards.md R129, R130): from a live block with a well-formed cartridge
and a register that names a bank, a step on an operation that keeps to the documented ranges and selects only banks
that exist completes, and leaves the block so. WellFormedCart is the spec's own premise (D30). -/
def Obligations.SafeSessionNeverFaults : Prop :=
  ∀ (s : State) (r : Request) (rest : List Request) (i : Instr), s.block.safe = true → s.pending = r :: rest →
    decodeRequest (mapperVariant s.block.mapper) r = .ok i → keepsToMap s.block i = true →
    ∃ t, step s = .next t ∧ t.block.safe = true ∧ t.pending = rest ∧
      ∃ resp, t.response = some resp ∧ ∀ rec, resp ≠ .fault rec
end

