-- ==== Sys2Proof/Laws/Decode.lean ====
section
/-! SUPPORT. The fields of an encoded word are the fields it was made of, and a code decodes to what it encodes
(30_encoding.md R53, R57, R59 to R61). -/

set_option linter.unusedSimpArgs false

namespace Sys2Proof

@[simp] theorem mapperZ_wordOf (op : BitVec 3) (a : Addr) (d : Byte) : mapperZ (mapperWordOf op a d) = 0b00000#5 := by
  unfold mapperZ mapperWordOf
  ext i hi
  simp (disch := omega) [decide_eq_true, decide_eq_false, BitVec.getLsbD_of_ge, ← BitVec.getLsbD_eq_getElem]

@[simp] theorem mapperOp_wordOf (op : BitVec 3) (a : Addr) (d : Byte) : mapperOp (mapperWordOf op a d) = op := by
  unfold mapperOp mapperWordOf
  ext i hi
  simp (disch := omega) [decide_eq_true, decide_eq_false, BitVec.getLsbD_of_ge, ← BitVec.getLsbD_eq_getElem]

@[simp] theorem mapperA_wordOf (op : BitVec 3) (a : Addr) (d : Byte) : mapperA (mapperWordOf op a d) = a := by
  unfold mapperA mapperWordOf
  ext i hi
  simp (disch := omega) [decide_eq_true, decide_eq_false, BitVec.getLsbD_of_ge, ← BitVec.getLsbD_eq_getElem]

@[simp] theorem mapperD_wordOf (op : BitVec 3) (a : Addr) (d : Byte) : mapperD (mapperWordOf op a d) = d := by
  unfold mapperD mapperWordOf
  ext i hi
  simp (disch := omega) [decide_eq_true, decide_eq_false, BitVec.getLsbD_of_ge, ← BitVec.getLsbD_eq_getElem]

@[simp] theorem pagerOp_wordOf (op k s b : BitVec 2) (n : BitVec 32) (o : Addr) (d : Byte) :
    pagerOp (pagerWordOf op k s b n o d) = op := by
  unfold pagerOp pagerWordOf
  ext i hi
  simp (disch := omega) [decide_eq_true, decide_eq_false, BitVec.getLsbD_of_ge, ← BitVec.getLsbD_eq_getElem]

@[simp] theorem pagerK_wordOf (op k s b : BitVec 2) (n : BitVec 32) (o : Addr) (d : Byte) :
    pagerK (pagerWordOf op k s b n o d) = k := by
  unfold pagerK pagerWordOf
  ext i hi
  simp (disch := omega) [decide_eq_true, decide_eq_false, BitVec.getLsbD_of_ge, ← BitVec.getLsbD_eq_getElem]

@[simp] theorem pagerS_wordOf (op k s b : BitVec 2) (n : BitVec 32) (o : Addr) (d : Byte) :
    pagerS (pagerWordOf op k s b n o d) = s := by
  unfold pagerS pagerWordOf
  ext i hi
  simp (disch := omega) [decide_eq_true, decide_eq_false, BitVec.getLsbD_of_ge, ← BitVec.getLsbD_eq_getElem]

@[simp] theorem pagerB_wordOf (op k s b : BitVec 2) (n : BitVec 32) (o : Addr) (d : Byte) :
    pagerB (pagerWordOf op k s b n o d) = b := by
  unfold pagerB pagerWordOf
  ext i hi
  simp (disch := omega) [decide_eq_true, decide_eq_false, BitVec.getLsbD_of_ge, ← BitVec.getLsbD_eq_getElem]

@[simp] theorem pagerN_wordOf (op k s b : BitVec 2) (n : BitVec 32) (o : Addr) (d : Byte) :
    pagerN (pagerWordOf op k s b n o d) = n := by
  unfold pagerN pagerWordOf
  ext i hi
  simp (disch := omega) [decide_eq_true, decide_eq_false, BitVec.getLsbD_of_ge, ← BitVec.getLsbD_eq_getElem]

@[simp] theorem pagerO_wordOf (op k s b : BitVec 2) (n : BitVec 32) (o : Addr) (d : Byte) :
    pagerO (pagerWordOf op k s b n o d) = o := by
  unfold pagerO pagerWordOf
  ext i hi
  simp (disch := omega) [decide_eq_true, decide_eq_false, BitVec.getLsbD_of_ge, ← BitVec.getLsbD_eq_getElem]

@[simp] theorem pagerD_wordOf (op k s b : BitVec 2) (n : BitVec 32) (o : Addr) (d : Byte) :
    pagerD (pagerWordOf op k s b n o d) = d := by
  unfold pagerD pagerWordOf
  ext i hi
  simp (disch := omega) [decide_eq_true, decide_eq_false, BitVec.getLsbD_of_ge, ← BitVec.getLsbD_eq_getElem]

@[simp] theorem decodeSize_sizeCode (s : PageSizeKb) : decodeSize (sizeCode s) = s := by cases s <;> rfl

@[simp] theorem decodeBuffer_bufferCode (b : BufferId) : decodeBuffer (bufferCode b) = some b := by cases b <;> rfl

/-- A selector that fits the word is read back from its kind, its size and its N field. -/
theorem decodePage_codes {p : Page} (h : p.fitsWord = true) :
    decodePage (pageKindCode p) (decodeSize (pageSizeCode p)) (pageNumberField p) = p := by
  cases p <;> simp_all [decodePage, pageKindCode, pageSizeCode, pageNumberField, Page.fitsWord, Nat.mod_eq_of_lt]

end Sys2Proof
end

