-- ==== Sys2Proof/Laws/State.lean ====
section
/-! SUPPORT. One lemma a field and update of the state, true by rfl, so that no proof unfolds a record update. -/

namespace Sys2Proof.Machine

@[simp] theorem reset_fault : State.reset.block.fault = none := rfl
@[simp] theorem reset_mapper : State.reset.block.mapper = .mapper2 0#4 := rfl
@[simp] theorem reset_pending : State.reset.pending = [] := rfl
@[simp] theorem reset_response : State.reset.response = none := rfl

@[simp] theorem takeFault_mapper (s : State) (op : Operation) (e : FaultInfo) :
    (takeFault s op e).block.mapper = s.block.mapper := rfl
@[simp] theorem takeFault_prgRom (s : State) (op : Operation) (e : FaultInfo) :
    (takeFault s op e).block.prgRom = s.block.prgRom := rfl
@[simp] theorem takeFault_chrRom (s : State) (op : Operation) (e : FaultInfo) :
    (takeFault s op e).block.chrRom = s.block.chrRom := rfl
@[simp] theorem takeFault_chrRam (s : State) (op : Operation) (e : FaultInfo) :
    (takeFault s op e).block.chrRam = s.block.chrRam := rfl
@[simp] theorem takeFault_mirroring (s : State) (op : Operation) (e : FaultInfo) :
    (takeFault s op e).block.mirroring = s.block.mirroring := rfl
@[simp] theorem takeFault_chrRomPages (s : State) (op : Operation) (e : FaultInfo) :
    (takeFault s op e).block.chrRomPages = s.block.chrRomPages := rfl
@[simp] theorem takeFault_fault (s : State) (op : Operation) (e : FaultInfo) :
    (takeFault s op e).block.fault = some { op := op, info := e } := rfl
@[simp] theorem takeFault_pending (s : State) (op : Operation) (e : FaultInfo) :
    (takeFault s op e).pending = s.pending := rfl
@[simp] theorem takeFault_response (s : State) (op : Operation) (e : FaultInfo) :
    (takeFault s op e).response = some (.fault { op := op, info := e }) := rfl

@[simp] theorem setBuffer_mapper (b : Block) (id : BufferId) (x : Buffer) :
    (b.setBuffer id x).mapper = b.mapper := by cases id <;> rfl
@[simp] theorem setBuffer_mirroring (b : Block) (id : BufferId) (x : Buffer) :
    (b.setBuffer id x).mirroring = b.mirroring := by cases id <;> rfl
@[simp] theorem setBuffer_chrRomPages (b : Block) (id : BufferId) (x : Buffer) :
    (b.setBuffer id x).chrRomPages = b.chrRomPages := by cases id <;> rfl
@[simp] theorem setBuffer_fault (b : Block) (id : BufferId) (x : Buffer) :
    (b.setBuffer id x).fault = b.fault := by cases id <;> rfl
@[simp] theorem setBuffer_buffer_same (b : Block) (id : BufferId) (x : Buffer) :
    (b.setBuffer id x).buffer id = x := by cases id <;> rfl

theorem setBuffer_buffer_other (b : Block) {id id' : BufferId} (h : id' ≠ id) (x : Buffer) :
    (b.setBuffer id x).buffer id' = b.buffer id' := by
  cases id <;> cases id' <;> first | rfl | exact absurd rfl h

/-- Putting a buffer back where it is changes nothing. -/
@[simp] theorem setBuffer_self (b : Block) (id : BufferId) : b.setBuffer id (b.buffer id) = b := by cases id <;> rfl

@[simp] theorem setBuffer_setBuffer (b : Block) (id : BufferId) (x y : Buffer) :
    (b.setBuffer id x).setBuffer id y = b.setBuffer id y := by cases id <;> rfl

@[simp] theorem bufferWrite_length (x : Buffer) (i : Nat) (v : Byte) : (x.write i v).length = x.length := rfl
@[simp] theorem bufferWrite_cells (x : Buffer) (i : Nat) (v : Byte) :
    (x.write i v).cells = Memory.write x.cells i v := rfl

@[simp] theorem issueNext_block (s : State) (r : Request) : (issueNext s r).block = s.block := rfl
@[simp] theorem issueNext_pending (s : State) (r : Request) : (issueNext s r).pending = r :: s.pending := rfl
@[simp] theorem issueNext_response (s : State) (r : Request) : (issueNext s r).response = s.response := rfl

@[simp] theorem blockOf_mapper (m : Mapper) (cart : CartridgeData) : (blockOf m cart).mapper = m := rfl
@[simp] theorem blockOf_fault (m : Mapper) (cart : CartridgeData) : (blockOf m cart).fault = none := rfl

end Sys2Proof.Machine
end

