-- ==== Sys2Proof/Laws/Memory.lean ====
section
/-! SUPPORT. The laws of buffer bytes: reading after a write, and that every memory operation keeps the canonical
form. The reading laws hold of every cell list, canonical or not. -/

namespace Sys2Proof.Machine

theorem read_erase_same (i : Nat) (m : Memory) : Memory.read (Memory.erase i m) i = Config.unlistedByte := by
  induction m with
  | nil => rfl
  | cons c rest ih =>
    by_cases h : c.1 = i
    · simpa [Memory.erase, h] using ih
    · simpa [Memory.erase, Memory.read, h] using ih

theorem read_erase_other {i j : Nat} (h : j ≠ i) (m : Memory) :
    Memory.read (Memory.erase i m) j = Memory.read m j := by
  induction m with
  | nil => rfl
  | cons c rest ih =>
    by_cases hc : c.1 = i
    · have : c.1 ≠ j := fun e => h (e ▸ hc)
      simpa [Memory.erase, Memory.read, hc, h, Ne.symm h] using ih
    · simp [Memory.erase, Memory.read, hc, ih]

theorem read_insert_other {i j : Nat} (h : j ≠ i) (v : Byte) (m : Memory) :
    Memory.read (Memory.insert i v m) j = Memory.read m j := by
  induction m with
  | nil => simp [Memory.insert, Memory.read, Ne.symm h]
  | cons c rest ih =>
    unfold Memory.insert
    split
    · simp [Memory.read, Ne.symm h]
    · simp [Memory.read, ih]

/-- Erasing leaves no cell at the index. -/
theorem erase_no_cell {i : Nat} {m : Memory} {c : Host.Cell} (hc : c ∈ Memory.erase i m) : c.1 ≠ i ∧ c ∈ m := by
  induction m with
  | nil => simp [Memory.erase] at hc
  | cons a rest ih =>
    unfold Memory.erase at hc
    split at hc
    · exact ⟨(ih hc).1, List.mem_cons_of_mem _ (ih hc).2⟩
    · rcases List.mem_cons.mp hc with rfl | hc
      · exact ⟨‹_›, by simp⟩
      · exact ⟨(ih hc).1, List.mem_cons_of_mem _ (ih hc).2⟩

theorem read_insert_same {i : Nat} (v : Byte) {m : Memory} (h : ∀ c ∈ m, c.1 ≠ i) :
    Memory.read (Memory.insert i v m) i = v := by
  induction m with
  | nil => simp [Memory.insert, Memory.read]
  | cons c rest ih =>
    unfold Memory.insert
    split
    · simp [Memory.read]
    · simp [Memory.read, h c (by simp), ih (fun c hc => h c (List.mem_cons_of_mem _ hc))]

/-- A read after a write to the same index gives the value written. -/
@[simp] theorem read_write_same (m : Memory) (i : Nat) (v : Byte) : Memory.read (Memory.write m i v) i = v := by
  unfold Memory.write
  split
  · rename_i h; rw [read_erase_same, h]
  · exact read_insert_same v (fun c hc => (erase_no_cell hc).1)

/-- A write leaves every other index alone. -/
theorem read_write_other {i j : Nat} (h : j ≠ i) (m : Memory) (v : Byte) :
    Memory.read (Memory.write m i v) j = Memory.read m j := by
  unfold Memory.write
  split
  · exact read_erase_other h m
  · rw [read_insert_other h, read_erase_other h]

@[simp] theorem buffer_read_write_same (x : Buffer) (i : Nat) (v : Byte) : (x.write i v).read i = v :=
  read_write_same _ _ _

theorem buffer_read_write_other {i j : Nat} (h : j ≠ i) (x : Buffer) (v : Byte) : (x.write i v).read j = x.read j :=
  read_write_other h _ _

theorem erase_insert_erase (i : Nat) (v : Byte) (m : Memory) :
    Memory.erase i (Memory.insert i v (Memory.erase i m)) = Memory.erase i m := by
  induction m with
  | nil => simp [Memory.erase, Memory.insert]
  | cons c rest ih =>
    by_cases h : c.1 = i
    · simpa [Memory.erase, h] using ih
    · have e : ∀ m : Memory, Memory.erase i (Memory.erase i m) = Memory.erase i m := by
        intro m
        induction m with
        | nil => rfl
        | cons a r ihm => by_cases ha : a.1 = i <;> simp [Memory.erase, ha, ihm]
      simp only [Memory.erase, h, if_false, Memory.insert]
      split
      · simp [Memory.erase, h, e]
      · simp [Memory.erase, h, ih]

/-- Writing a byte twice is writing it once. -/
@[simp] theorem write_write_same (m : Memory) (i : Nat) (v : Byte) :
    Memory.write (Memory.write m i v) i v = Memory.write m i v := by
  have e : Memory.erase i (Memory.erase i m) = Memory.erase i m := by
    induction m with
    | nil => rfl
    | cons a r ihm => by_cases ha : a.1 = i <;> simp [Memory.erase, ha, ihm]
  unfold Memory.write
  split
  · exact e
  · rw [erase_insert_erase]

@[simp] theorem bufferWrite_bufferWrite (x : Buffer) (i : Nat) (v : Byte) : (x.write i v).write i v = x.write i v := by
  simp [Buffer.write]

/-! The canonical form. -/

theorem memoryWf_cons (c : Host.Cell) (m : Memory) :
    Memory.wf (c :: m) = true ↔
      c.2 ≠ Config.unlistedByte ∧ (∀ x ∈ m, c.1 < x.1) ∧ Memory.wf m = true := by
  cases c
  simp [Memory.wf, and_assoc]

theorem mem_insert {i : Nat} {v : Byte} {m : Memory} {c : Host.Cell} (h : c ∈ Memory.insert i v m) :
    c = (i, v) ∨ c ∈ m := by
  induction m with
  | nil => simpa [Memory.insert] using h
  | cons a rest ih =>
    unfold Memory.insert at h
    split at h
    · simpa using h
    · rcases List.mem_cons.mp h with rfl | h
      · exact .inr (by simp)
      · exact (ih h).imp_right (List.mem_cons_of_mem _)

theorem memoryWf_erase {m : Memory} (i : Nat) (h : Memory.wf m = true) : Memory.wf (Memory.erase i m) = true := by
  induction m with
  | nil => rfl
  | cons c rest ih =>
    obtain ⟨h1, h2, h3⟩ := (memoryWf_cons c rest).mp h
    unfold Memory.erase
    split
    · exact ih h3
    · exact (memoryWf_cons _ _).mpr ⟨h1, fun x hx => h2 x (erase_no_cell hx).2, ih h3⟩

theorem memoryWf_insert {m : Memory} {i : Nat} {v : Byte} (hv : v ≠ Config.unlistedByte) (hi : ∀ c ∈ m, c.1 ≠ i)
    (h : Memory.wf m = true) : Memory.wf (Memory.insert i v m) = true := by
  induction m with
  | nil => exact (memoryWf_cons _ _).mpr ⟨hv, by simp, rfl⟩
  | cons c rest ih =>
    obtain ⟨h1, h2, h3⟩ := (memoryWf_cons c rest).mp h
    have hc : c.1 ≠ i := hi c (by simp)
    unfold Memory.insert
    split
    · rename_i hlt
      refine (memoryWf_cons _ _).mpr ⟨hv, fun x hx => ?_, h⟩
      rcases List.mem_cons.mp hx with rfl | hx
      · exact hlt
      · exact lt_trans hlt (h2 x hx)
    · rename_i hge
      refine (memoryWf_cons _ _).mpr ⟨h1, fun x hx => ?_, ih (fun x hx => hi x (List.mem_cons_of_mem _ hx)) h3⟩
      rcases mem_insert hx with rfl | hx
      · show c.1 < i
        omega
      · exact h2 x hx

/-- A write keeps the canonical form. -/
theorem memoryWf_write {m : Memory} (i : Nat) (v : Byte) (h : Memory.wf m = true) :
    Memory.wf (Memory.write m i v) = true := by
  unfold Memory.write
  split
  · exact memoryWf_erase i h
  · exact memoryWf_insert ‹_› (fun c hc => (erase_no_cell hc).1) (memoryWf_erase i h)

theorem bufferWf_iff (x : Buffer) : x.wf = true ↔ Memory.wf x.cells = true ∧ ∀ c ∈ x.cells, c.1 < x.length := by
  simp [Buffer.wf]

/-- A write inside the buffer keeps the buffer's canonical form. -/
theorem bufferWf_write {x : Buffer} {i : Nat} (v : Byte) (hi : i < x.length) (h : x.wf = true) :
    (x.write i v).wf = true := by
  obtain ⟨h1, h2⟩ := (bufferWf_iff x).mp h
  refine (bufferWf_iff _).mpr ⟨memoryWf_write i v h1, fun c hc => ?_⟩
  simp only [bufferWrite_cells, bufferWrite_length, Memory.write] at hc ⊢
  split at hc
  · exact h2 c (erase_no_cell hc).2
  · rcases mem_insert hc with rfl | hc
    · exact hi
    · exact h2 c (erase_no_cell hc).2

theorem read_ne_unlisted {m : Memory} {c : Host.Cell} (hc : c ∈ m) (h : Memory.wf m = true) :
    Memory.read m c.1 = c.2 ∧ c.2 ≠ Config.unlistedByte := by
  induction m with
  | nil => simp at hc
  | cons a rest ih =>
    obtain ⟨h1, h2, h3⟩ := (memoryWf_cons a rest).mp h
    rcases List.mem_cons.mp hc with rfl | hc
    · exact ⟨by simp [Memory.read], h1⟩
    · have hne : a.1 ≠ c.1 := Nat.ne_of_lt (h2 c hc)
      simpa [Memory.read, hne] using ih hc h3

theorem read_of_not_listed {m : Memory} {i : Nat} (h : ∀ c ∈ m, c.1 ≠ i) : Memory.read m i = Config.unlistedByte := by
  induction m with
  | nil => rfl
  | cons c rest ih => simp [Memory.read, h c (by simp), ih (fun x hx => h x (List.mem_cons_of_mem _ hx))]

/-- Canonical memories that read alike are the same list: equal contents are equal data. -/
theorem memory_ext {m m' : Memory} (h : Memory.wf m = true) (h' : Memory.wf m' = true)
    (he : ∀ i, Memory.read m i = Memory.read m' i) : m = m' := by
  induction m generalizing m' with
  | nil =>
    cases m' with
    | nil => rfl
    | cons c r =>
      have := read_ne_unlisted (List.mem_cons_self (a := c) (l := r)) h'
      exact absurd (this.1 ▸ (he c.1).symm) this.2
  | cons a rest ih =>
    cases m' with
    | nil =>
      have := read_ne_unlisted (List.mem_cons_self (a := a) (l := rest)) h
      exact absurd (this.1 ▸ he a.1) this.2
    | cons c r =>
      obtain ⟨a1, a2, a3⟩ := (memoryWf_cons a rest).mp h
      obtain ⟨c1, c2, c3⟩ := (memoryWf_cons c r).mp h'
      have ha : Memory.read (a :: rest) a.1 = a.2 := by simp [Memory.read]
      have hc : Memory.read (c :: r) c.1 = c.2 := by simp [Memory.read]
      have hkey : a.1 = c.1 := by
        rcases Nat.lt_trichotomy a.1 c.1 with hlt | heq | hgt
        · have : Memory.read (c :: r) a.1 = Config.unlistedByte := read_of_not_listed (fun x hx => by
            rcases List.mem_cons.mp hx with rfl | hx
            · omega
            · have := c2 x hx; omega)
          exact absurd (ha.symm.trans ((he a.1).trans this)) a1
        · exact heq
        · have : Memory.read (a :: rest) c.1 = Config.unlistedByte := read_of_not_listed (fun x hx => by
            rcases List.mem_cons.mp hx with rfl | hx
            · omega
            · have := a2 x hx; omega)
          exact absurd (hc.symm.trans ((he c.1).symm.trans this)) c1
      have hval : a.2 = c.2 := by rw [← ha, ← hc, he, hkey]
      have hac : a = c := Prod.ext hkey hval
      subst hac
      refine congrArg _ (ih a3 c3 (fun i => ?_))
      by_cases hi : a.1 = i
      · rw [read_of_not_listed (fun x hx => by have := a2 x hx; omega),
          read_of_not_listed (fun x hx => by have := c2 x hx; omega)]
      · have := he i
        simpa [Memory.read, hi] using this

/-! Every byte sequence is a canonical buffer. -/

theorem cellsFrom_bounds {l : List Byte} {k : Nat} {c : Host.Cell} (h : c ∈ cellsFrom k l) :
    k ≤ c.1 ∧ c.1 < k + l.length := by
  induction l generalizing k with
  | nil => simp [cellsFrom] at h
  | cons v rest ih =>
    unfold cellsFrom at h
    split at h
    · have := ih h
      simp only [List.length_cons]
      omega
    · rcases List.mem_cons.mp h with rfl | h
      · simp
      · have := ih h
        simp only [List.length_cons]
        omega

theorem cellsFrom_wf (l : List Byte) (k : Nat) : Memory.wf (cellsFrom k l) = true := by
  induction l generalizing k with
  | nil => rfl
  | cons v rest ih =>
    unfold cellsFrom
    split
    · exact ih _
    · exact (memoryWf_cons _ _).mpr ⟨‹_›, fun x hx => (cellsFrom_bounds hx).1, ih _⟩

theorem read_cellsFrom (l : List Byte) (k j : Nat) (h : j < l.length) :
    Memory.read (cellsFrom k l) (k + j) = l[j] := by
  induction l generalizing k j with
  | nil => simp at h
  | cons v rest ih =>
    unfold cellsFrom
    cases j with
    | zero =>
      split
      · rename_i hv
        rw [read_of_not_listed]
        · simp [hv]
        · intro c hc
          have := (cellsFrom_bounds hc).1
          omega
      · simp [Memory.read]
    | succ j =>
      have := ih (k + 1) j (by simpa using h)
      split
      · simpa [Nat.add_assoc, Nat.add_comm 1 j] using this
      · simpa [Memory.read, Nat.add_assoc, Nat.add_comm 1 j] using this

@[simp] theorem ofBytes_length (l : List Byte) : (Buffer.ofBytes l).length = l.length := rfl

theorem ofBytes_wf (l : List Byte) : (Buffer.ofBytes l).wf = true :=
  (bufferWf_iff _).mpr ⟨cellsFrom_wf l 0, fun c hc => by simpa using (cellsFrom_bounds hc).2⟩

theorem ofBytes_read (l : List Byte) (j : Nat) (h : j < l.length) : (Buffer.ofBytes l).read j = l[j] := by
  simpa [Buffer.ofBytes, Buffer.read] using read_cellsFrom l 0 j h

end Sys2Proof.Machine
end

