-- ==== Sys2Proof/Laws/Pager.lean ====
section
/-! SUPPORT. What the Pager's functions can do, said once (41_pager.md R68 to R75). -/

namespace Sys2Proof.Machine

theorem sizeBytes_pos (s : PageSizeKb) : 0 < sizeBytes s := by cases s <;> decide

@[simp] theorem pageSize_first (s : PageSizeKb) : pageSize (.first s) = s := rfl
@[simp] theorem pageSize_last (s : PageSizeKb) : pageSize (.last s) = s := rfl
@[simp] theorem pageSize_number (n : Nat) (s : PageSizeKb) : pageSize (.number n s) = s := rfl
@[simp] theorem pageSize_fromEnd (n : Nat) (s : PageSizeKb) : pageSize (.fromEnd n s) = s := rfl
@[simp] theorem canonicalBank_first (pc : Nat) (s : PageSizeKb) : canonicalBank pc (.first s) = some 0 := rfl
@[simp] theorem canonicalBank_number (pc n : Nat) (s : PageSizeKb) : canonicalBank pc (.number n s) = some n := rfl
@[simp] theorem sizeBytes_kb1 : sizeBytes .kb1 = 1024 := rfl
@[simp] theorem sizeBytes_kb4 : sizeBytes .kb4 = 4096 := rfl
@[simp] theorem sizeBytes_kb8 : sizeBytes .kb8 = 8192 := rfl
@[simp] theorem sizeBytes_kb16 : sizeBytes .kb16 = 16384 := rfl

theorem pageCount_exact {b : Block} {id : BufferId} {s : PageSizeKb} (h : (b.buffer id).length % sizeBytes s = 0) :
    pageCount b id s = .ok ((b.buffer id).length / sizeBytes s) := by simp [pageCount, h]

theorem pageCount_malformed {b : Block} {id : BufferId} {s : PageSizeKb}
    (h : (b.buffer id).length % sizeBytes s ≠ 0) :
    pageCount b id s = .error (.malformedImage id (b.buffer id).length (sizeBytes s)) := by simp [pageCount, h]

theorem pagerIndex_malformed {b : Block} {id : BufferId} {p : Page} {o : Addr}
    (h : (b.buffer id).length % sizeBytes (pageSize p) ≠ 0) :
    pagerIndex b id p o = .error (.malformedImage id (b.buffer id).length (sizeBytes (pageSize p))) := by
  simp [pagerIndex, pageCount_malformed h]

/-- The bank check, for a selector without a canonical form and for a bank past the last page alike. -/
theorem pagerIndex_bankRange {b : Block} {id : BufferId} {p : Page} {o : Addr}
    (h : (b.buffer id).length % sizeBytes (pageSize p) = 0)
    (hn : ∀ n, canonicalBank ((b.buffer id).length / sizeBytes (pageSize p)) p = some n →
      (b.buffer id).length / sizeBytes (pageSize p) ≤ n) :
    pagerIndex b id p o = .error (.pageBounds id p o .bankRange) := by
  simp only [pagerIndex, pageCount_exact h]
  cases hc : canonicalBank ((b.buffer id).length / sizeBytes (pageSize p)) p with
  | none => rfl
  | some n => simp [hn n hc]

theorem pagerIndex_offsetRange {b : Block} {id : BufferId} {p : Page} {o : Addr} {n : Nat}
    (h : (b.buffer id).length % sizeBytes (pageSize p) = 0)
    (hc : canonicalBank ((b.buffer id).length / sizeBytes (pageSize p)) p = some n)
    (hn : n < (b.buffer id).length / sizeBytes (pageSize p)) (ho : sizeBytes (pageSize p) ≤ o.toNat) :
    pagerIndex b id p o = .error (.pageBounds id p o .offsetRange) := by
  simp [pagerIndex, pageCount_exact h, hc, Nat.not_le.mpr hn, ho]

theorem pagerIndex_inRange {b : Block} {id : BufferId} {p : Page} {o : Addr} {n : Nat}
    (h : (b.buffer id).length % sizeBytes (pageSize p) = 0)
    (hc : canonicalBank ((b.buffer id).length / sizeBytes (pageSize p)) p = some n)
    (hn : n < (b.buffer id).length / sizeBytes (pageSize p)) (ho : o.toNat < sizeBytes (pageSize p)) :
    pagerIndex b id p o = .ok (n * sizeBytes (pageSize p) + o.toNat) := by
  simp [pagerIndex, pageCount_exact h, hc, Nat.not_le.mpr hn, Nat.not_le.mpr ho]

/-- When the index is given, and what it is. -/
theorem pagerIndex_ok_iff {b : Block} {id : BufferId} {p : Page} {o : Addr} {i : Nat} :
    pagerIndex b id p o = .ok i ↔
      (b.buffer id).length % sizeBytes (pageSize p) = 0 ∧
        ∃ n, canonicalBank ((b.buffer id).length / sizeBytes (pageSize p)) p = some n ∧
          n < (b.buffer id).length / sizeBytes (pageSize p) ∧ o.toNat < sizeBytes (pageSize p) ∧
          i = n * sizeBytes (pageSize p) + o.toNat := by
  constructor
  · intro h
    by_cases hm : (b.buffer id).length % sizeBytes (pageSize p) = 0
    · refine ⟨hm, ?_⟩
      cases hc : canonicalBank ((b.buffer id).length / sizeBytes (pageSize p)) p with
      | none => rw [pagerIndex_bankRange hm (by simp [hc])] at h; cases h
      | some n =>
        by_cases hn : n < (b.buffer id).length / sizeBytes (pageSize p)
        · by_cases ho : o.toNat < sizeBytes (pageSize p)
          · rw [pagerIndex_inRange hm hc hn ho] at h
            exact ⟨n, rfl, hn, ho, (Except.ok.inj h).symm⟩
          · rw [pagerIndex_offsetRange hm hc hn (Nat.not_lt.mp ho)] at h; cases h
        · rw [pagerIndex_bankRange hm (by simpa [hc] using hn)] at h; cases h
    · rw [pagerIndex_malformed hm] at h; cases h
  · rintro ⟨hm, n, hc, hn, ho, rfl⟩
    exact pagerIndex_inRange hm hc hn ho

/-- A resolved index lies in its buffer. -/
theorem pagerIndex_lt {b : Block} {id : BufferId} {p : Page} {o : Addr} {i : Nat}
    (h : pagerIndex b id p o = .ok i) : i < (b.buffer id).length := by
  obtain ⟨hm, n, -, hn, ho, rfl⟩ := pagerIndex_ok_iff.mp h
  have h1 : (n + 1) * sizeBytes (pageSize p) ≤ (b.buffer id).length / sizeBytes (pageSize p) * sizeBytes (pageSize p) :=
    Nat.mul_le_mul_right _ hn
  have h2 := Nat.div_mul_le_self (b.buffer id).length (sizeBytes (pageSize p))
  rw [Nat.add_mul, Nat.one_mul] at h1
  omega

/-- The resolution looks at nothing but the buffer's length. -/
theorem pagerIndex_congr {b b' : Block} {id : BufferId} (h : (b.buffer id).length = (b'.buffer id).length)
    (p : Page) (o : Addr) : pagerIndex b id p o = pagerIndex b' id p o := by
  simp only [pagerIndex, pageCount, h]

/-- A write by the Pager replaces one byte, inside the buffer. -/
theorem pagerWrite_ok_iff {b b' : Block} {id : BufferId} {p : Page} {o : Addr} {v : Byte} :
    pagerWrite b id p o v = .ok b' ↔
      ∃ i, pagerIndex b id p o = .ok i ∧ b' = b.setBuffer id ((b.buffer id).write i v) := by
  unfold pagerWrite
  cases pagerIndex b id p o with
  | error e => simp
  | ok i => simp [eq_comm]

theorem pagerRead_ok_iff {b : Block} {id : BufferId} {p : Page} {o : Addr} {v : Byte} :
    pagerRead b id p o = .ok v ↔ ∃ i, pagerIndex b id p o = .ok i ∧ v = (b.buffer id).read i := by
  unfold pagerRead
  cases pagerIndex b id p o with
  | error e => simp
  | ok i => simp [eq_comm]

/-- A failed resolution is malformed, or out of bounds with the selector and offset as given. -/
theorem pagerIndex_error_cases {b : Block} {id : BufferId} {p : Page} {o : Addr} {e : FaultInfo}
    (h : pagerIndex b id p o = .error e) :
    (∃ why, e = .pageBounds id p o why) ∨
      ((b.buffer id).length % sizeBytes (pageSize p) ≠ 0 ∧
        e = .malformedImage id (b.buffer id).length (sizeBytes (pageSize p))) := by
  by_cases hm : (b.buffer id).length % sizeBytes (pageSize p) = 0
  · left
    simp only [pagerIndex, pageCount_exact hm] at h
    repeat' split at h
    all_goals cases h
    all_goals exact ⟨_, rfl⟩
  · rw [pagerIndex_malformed hm] at h
    cases h
    exact .inr ⟨hm, rfl⟩

theorem pagerRead_error_iff {b : Block} {id : BufferId} {p : Page} {o : Addr} {e : FaultInfo} :
    pagerRead b id p o = .error e ↔ pagerIndex b id p o = .error e := by
  unfold pagerRead
  cases pagerIndex b id p o <;> simp

theorem pagerWrite_error_iff {b : Block} {id : BufferId} {p : Page} {o : Addr} {v : Byte} {e : FaultInfo} :
    pagerWrite b id p o v = .error e ↔ pagerIndex b id p o = .error e := by
  unfold pagerWrite
  cases pagerIndex b id p o <;> simp

end Sys2Proof.Machine
end

