-- ==== Sys2Proof/Laws/Ops.lean ====
section
/-! SUPPORT. What an instruction and a step can do, said once. `effectOf` is an instruction's effect on the block
alone; `exec_live` ties it to exec, `effectOf_ok_cases` says the three shapes a completed effect has, and
`exec_next_cases` the two shapes of a next state. -/

namespace Sys2Proof.Machine

/-! How an operation ends. -/

@[simp] theorem conclude_ok (s : State) (op : Operation) (b : Block) (r : Response) :
    conclude s op (.ok (b, r)) = .next { s with block := b, response := some r } := rfl

@[simp] theorem conclude_error (s : State) (op : Operation) (e : FaultInfo) :
    conclude s op (.error e) = .next (takeFault s op e) := rfl

/-- An operation that starts always ends in a next state. -/
theorem conclude_next_iff {s t : State} {op : Operation} {r : Except FaultInfo (Block × Response)} :
    conclude s op r = .next t ↔
      (∃ b resp, r = .ok (b, resp) ∧ t = { s with block := b, response := some resp }) ∨
      (∃ e, r = .error e ∧ t = takeFault s op e) := by
  cases r with
  | error e => simp [eq_comm]
  | ok x => cases x; simp [eq_comm]

/-! Domain checks, over the address as a number. -/

theorem prgDomainFault_below {a : Addr} (op : Operation) (h : a.toNat < 0x8000) :
    prgDomainFault op a = some (.address op a) := by
  have : a < 0x8000#16 := by simpa [BitVec.lt_def] using h
  simp [prgDomainFault, this]

theorem prgDomainFault_inside {a : Addr} (op : Operation) (h : 0x8000 ≤ a.toNat) : prgDomainFault op a = none := by
  have : ¬ a < 0x8000#16 := by simpa [BitVec.lt_def] using h
  simp [prgDomainFault, this]

theorem chrDomainFault_above {a : Addr} (op : Operation) (h : 0x2000 ≤ a.toNat) :
    chrDomainFault op a = some (.address op a) := by
  have : 0x2000#16 ≤ a := by simpa [BitVec.le_def] using h
  simp [chrDomainFault, this]

theorem chrDomainFault_inside {a : Addr} (op : Operation) (h : a.toNat < 0x2000) : chrDomainFault op a = none := by
  have : ¬ 0x2000#16 ≤ a := by simpa [BitVec.le_def] using h
  simp [chrDomainFault, this]

theorem inLowWindow_iff (a : Addr) : inLowWindow a = true ↔ a.toNat ≤ 0xBFFF := by
  simp [inLowWindow, BitVec.le_def]

/-- The low window's offset is `A - 0x8000` as a number (42_mapper_capability.md R86). -/
theorem windowOffset_low {a : Addr} (h : 0x8000 ≤ a.toNat) (h' : a.toNat ≤ 0xBFFF) :
    (windowOffset a).toNat = a.toNat - 0x8000 := by
  have := (inLowWindow_iff a).mpr h'
  have ha := a.isLt
  simp [windowOffset, this, BitVec.toNat_sub]
  omega

/-- The high window's offset is `A - 0xC000` as a number (42_mapper_capability.md R86). -/
theorem windowOffset_high {a : Addr} (h : 0xC000 ≤ a.toNat) : (windowOffset a).toNat = a.toNat - 0xC000 := by
  have : ¬ inLowWindow a = true := fun hc => by have := (inLowWindow_iff a).mp hc; omega
  have ha := a.isLt
  simp [windowOffset, this, BitVec.toNat_sub]
  omega

/-! An instruction's effect on the block. -/

/-- The effect of an instruction on a block that is live and of the instruction's variant. -/
def effectOf (b : Block) : Instr → Except FaultInfo (Block × Response)
  | .m2RdPrg a =>
    match b.mapper with
    | .mapper2 prg0 =>
      driveTarget b (prgDomainFault .rdPrg a) (.pagerRead .prgRom (mapper2PrgPage prg0 a) (windowOffset a))
    | .mapper3 _ => .ok (b, .nothing)
  | .m2WrPrg a d => driveTarget b (prgDomainFault .wrPrg a) (.regWrite (.mapper2 (prgBankOfData d)))
  | .m2RdChr a =>
    driveTarget b (chrDomainFault .rdChr a) (.pagerRead (mapper2ChrBuffer b.chrRomPages) mapper2ChrPage a)
  | .m2WrChr a d =>
    driveTarget b (chrDomainFault .wrChr a)
      (if b.chrRomPages = 0 then .pagerWrite .chrRam mapper2ChrPage a d else .discard)
  | .m2Mirror => driveTarget b none .headerRead
  | .m3RdPrg a => driveTarget b (prgDomainFault .rdPrg a) (.pagerRead .prgRom (mapper3PrgPage a) (windowOffset a))
  | .m3WrPrg a d => driveTarget b (prgDomainFault .wrPrg a) (.regWrite (.mapper3 d))
  | .m3RdChr a =>
    match b.mapper with
    | .mapper2 _ => .ok (b, .nothing)
    | .mapper3 chr0 => driveTarget b (chrDomainFault .rdChr a) (.pagerRead .chrRom (mapper3ChrPage chr0) a)
  | .m3WrChr a _ => driveTarget b (chrDomainFault .wrChr a) .discard
  | .m3Mirror => driveTarget b none .headerRead
  | .pgRead id page off => performTarget b (.pagerRead id page off)
  | .pgWrite id page off v => performTarget b (.pagerWrite id page off v)
  | .pgCount id size => performCount b id size

/-- On a live block of its variant, an instruction is its effect and then its end. -/
theorem exec_live {i : Instr} {s : State} (hf : s.block.fault = none)
    (hv : i.availableOn (mapperVariant s.block.mapper) = true) :
    exec i s = conclude s i.operation (effectOf s.block i) := by
  cases i <;> cases hm : s.block.mapper <;>
    simp_all [exec, execM2RdPrg, execM2WrPrg, execM2RdChr, execM2WrChr, execM2Mirror, execM3RdPrg, execM3WrPrg,
      execM3RdChr, execM3WrChr, execM3Mirror, execPgRead, execPgWrite, execPgCount, runMapper2, runMapper3, runPager,
      effectOf, Instr.operation, Instr.availableOn, mapperVariant]

/-- On a live block of the other variant, a mapper instruction is refused. -/
theorem exec_otherVariant {i : Instr} {s : State} (hf : s.block.fault = none)
    (hv : i.availableOn (mapperVariant s.block.mapper) = false) : exec i s = .refused .otherVariant := by
  cases i <;> cases hm : s.block.mapper <;>
    simp_all [exec, execM2RdPrg, execM2WrPrg, execM2RdChr, execM2WrChr, execM2Mirror, execM3RdPrg, execM3WrPrg,
      execM3RdChr, execM3WrChr, execM3Mirror, runMapper2, runMapper3, Instr.availableOn, mapperVariant]

/-- A faulted block accepts no instruction. -/
theorem exec_faulted {i : Instr} {s : State} {r : FaultRecord} (hf : s.block.fault = some r) :
    exec i s = .fault (.sessionOver r) := by
  cases i <;>
    simp [exec, execM2RdPrg, execM2WrPrg, execM2RdChr, execM2WrChr, execM2Mirror, execM3RdPrg, execM3WrPrg,
      execM3RdChr, execM3WrChr, execM3Mirror, execPgRead, execPgWrite, execPgCount, runMapper2, runMapper3, runPager, hf]

/-- A next state comes from a live block of the instruction's variant. -/
theorem exec_next_live {i : Instr} {s t : State} (h : exec i s = .next t) :
    s.block.fault = none ∧ i.availableOn (mapperVariant s.block.mapper) = true := by
  cases hf : s.block.fault with
  | some r => rw [exec_faulted hf] at h; cases h
  | none =>
    refine ⟨rfl, ?_⟩
    cases hv : i.availableOn (mapperVariant s.block.mapper) with
    | true => rfl
    | false => rw [exec_otherVariant hf hv] at h; cases h

/-- The two shapes of a next state: the effect applied, or its fault taken. -/
theorem exec_next_cases {i : Instr} {s t : State} (h : exec i s = .next t) :
    s.block.fault = none ∧ i.availableOn (mapperVariant s.block.mapper) = true ∧
      ((∃ b resp, effectOf s.block i = .ok (b, resp) ∧ t = { s with block := b, response := some resp }) ∨
        (∃ e, effectOf s.block i = .error e ∧ t = takeFault s i.operation e)) := by
  obtain ⟨hf, hv⟩ := exec_next_live h
  rw [exec_live hf hv] at h
  exact ⟨hf, hv, conclude_next_iff.mp h⟩

/-- A target carried out leaves the block, or sets the register, or replaces one byte. -/
theorem performTarget_ok_cases {b b' : Block} {g : Target} {r : Response} (h : performTarget b g = .ok (b', r)) :
    b' = b ∨ (∃ m, g = .regWrite m ∧ b' = { b with mapper := m }) ∨
      (∃ id p o v j, g = .pagerWrite id p o v ∧ pagerIndex b id p o = .ok j ∧
        b' = b.setBuffer id ((b.buffer id).write j v)) := by
  cases g with
  | pagerRead id p o =>
    simp only [performTarget] at h
    split at h
    · cases h
    · left; cases h; rfl
  | pagerWrite id p o v =>
    simp only [performTarget] at h
    split at h
    · cases h
    · rename_i b'' hw
      obtain ⟨j, hj, rfl⟩ := pagerWrite_ok_iff.mp hw
      cases h
      exact .inr (.inr ⟨id, p, o, v, j, rfl, hj, rfl⟩)
  | regWrite m => cases h; exact .inr (.inl ⟨m, rfl, rfl⟩)
  | discard => cases h; exact .inl rfl
  | headerRead => cases h; exact .inl rfl

/-- A target that neither sets the register nor writes leaves the block as it is. -/
theorem performTarget_keeps {b b' : Block} {g : Target} {r : Response} (h : performTarget b g = .ok (b', r))
    (hr : ∀ m, g ≠ .regWrite m) (hw : ∀ id p o v, g ≠ .pagerWrite id p o v) : b' = b := by
  rcases performTarget_ok_cases h with h | ⟨m, hg, -⟩ | ⟨id, p, o, v, j, hg, -, -⟩
  · exact h
  · exact absurd hg (hr m)
  · exact absurd hg (hw id p o v)

/-- A write target carried out replaces the byte its selector and offset resolve to. -/
theorem performTarget_write {b b' : Block} {id : BufferId} {p : Page} {o : Addr} {v : Byte} {r : Response}
    (h : performTarget b (.pagerWrite id p o v) = .ok (b', r)) :
    ∃ j, pagerIndex b id p o = .ok j ∧ b' = b.setBuffer id ((b.buffer id).write j v) := by
  simp only [performTarget] at h
  split at h
  · cases h
  · rename_i b'' hw
    obtain ⟨j, hj, rfl⟩ := pagerWrite_ok_iff.mp hw
    cases h
    exact ⟨j, hj, rfl⟩

theorem driveTarget_ok {b b' : Block} {f : Option FaultInfo} {g : Target} {r : Response}
    (h : driveTarget b f g = .ok (b', r)) : f = none ∧ performTarget b g = .ok (b', r) := by
  cases f with
  | some e => cases h
  | none => exact ⟨rfl, h⟩

/-- The three shapes of a completed effect: nothing changes, a bank-select write sets the register of the block's own
variant, or a store replaces the byte `storedByte` names. -/
theorem effectOf_ok_cases {b b' : Block} {i : Instr} {r : Response}
    (hv : i.availableOn (mapperVariant b.mapper) = true) (h : effectOf b i = .ok (b', r)) :
    b' = b ∨
      (i.operation = .wrPrg ∧ ∃ m, mapperVariant m = mapperVariant b.mapper ∧ b' = { b with mapper := m }) ∨
      (∃ id j v, storedByte b i = some (id, j) ∧ j < (b.buffer id).length ∧
        b' = b.setBuffer id ((b.buffer id).write j v)) := by
  cases i with
  | m2WrPrg a d =>
    obtain ⟨-, h⟩ := driveTarget_ok h
    cases h
    cases hm : b.mapper with
    | mapper2 p => exact .inr (.inl ⟨rfl, _, by simp [mapperVariant], rfl⟩)
    | mapper3 c => simp [Instr.availableOn, mapperVariant, hm] at hv
  | m3WrPrg a d =>
    obtain ⟨-, h⟩ := driveTarget_ok h
    cases h
    cases hm : b.mapper with
    | mapper3 p => exact .inr (.inl ⟨rfl, _, by simp [mapperVariant], rfl⟩)
    | mapper2 c => simp [Instr.availableOn, mapperVariant, hm] at hv
  | m2WrChr a d =>
    obtain ⟨-, h⟩ := driveTarget_ok h
    split at h
    · rename_i hp
      obtain ⟨j, hj, rfl⟩ := performTarget_write h
      exact .inr (.inr ⟨_, j, _, by simp [storedByte, hp, hj, Except.toOption], pagerIndex_lt hj, rfl⟩)
    · exact .inl (performTarget_keeps h (by simp) (by simp))
  | pgWrite id p o v =>
    simp only [effectOf] at h
    obtain ⟨j, hj, rfl⟩ := performTarget_write h
    exact .inr (.inr ⟨_, j, _, by simp [storedByte, hj, Except.toOption], pagerIndex_lt hj, rfl⟩)
  | m2RdPrg a =>
    simp only [effectOf] at h
    split at h
    · exact .inl (performTarget_keeps (driveTarget_ok h).2 (by simp) (by simp))
    · cases h; exact .inl rfl
  | m3RdChr a =>
    simp only [effectOf] at h
    split at h
    · cases h; exact .inl rfl
    · exact .inl (performTarget_keeps (driveTarget_ok h).2 (by simp) (by simp))
  | m2RdChr a | m3RdPrg a | m2Mirror | m3Mirror | m3WrChr a d =>
    simp only [effectOf] at h
    exact .inl (performTarget_keeps (driveTarget_ok h).2 (by simp) (by simp))
  | pgRead id p o =>
    simp only [effectOf] at h
    exact .inl (performTarget_keeps h (by simp) (by simp))
  | pgCount id s =>
    simp only [effectOf, performCount] at h
    split at h
    · cases h
    · cases h; exact .inl rfl

/-- A completed effect leaves the fault field alone. -/
theorem effectOf_ok_fault {b b' : Block} {i : Instr} {r : Response}
    (hv : i.availableOn (mapperVariant b.mapper) = true) (h : effectOf b i = .ok (b', r)) : b'.fault = b.fault := by
  rcases effectOf_ok_cases hv h with rfl | ⟨-, m, -, rfl⟩ | ⟨id, j, v, -, -, rfl⟩ <;> simp

/-- A target that faults is a Pager access whose resolution faults. -/
theorem performTarget_error_cases {b : Block} {g : Target} {e : FaultInfo} (h : performTarget b g = .error e) :
    (∃ id p o, g = .pagerRead id p o ∧ pagerIndex b id p o = .error e) ∨
      (∃ id p o v, g = .pagerWrite id p o v ∧ pagerIndex b id p o = .error e) := by
  cases g with
  | pagerRead id p o =>
    simp only [performTarget] at h
    split at h
    · rename_i hr
      cases h
      exact .inl ⟨id, p, o, rfl, pagerRead_error_iff.mp hr⟩
    · cases h
  | pagerWrite id p o v =>
    simp only [performTarget] at h
    split at h
    · rename_i hw
      cases h
      exact .inr ⟨id, p, o, v, rfl, pagerWrite_error_iff.mp hw⟩
    · cases h
  | regWrite m => cases h
  | discard => cases h
  | headerRead => cases h

theorem driveTarget_error_cases {b : Block} {f : Option FaultInfo} {g : Target} {e : FaultInfo}
    (h : driveTarget b f g = .error e) : f = some e ∨ (f = none ∧ performTarget b g = .error e) := by
  cases f with
  | some e' => cases h; exact .inl rfl
  | none => exact .inr ⟨rfl, h⟩

theorem prgDomainFault_some {op : Operation} {a : Addr} {e : FaultInfo} (h : prgDomainFault op a = some e) :
    a.toNat < 0x8000 ∧ e = .address op a := by
  by_cases ha : a.toNat < 0x8000
  · rw [prgDomainFault_below op ha] at h
    exact ⟨ha, (Option.some.inj h).symm⟩
  · rw [prgDomainFault_inside op (Nat.not_lt.mp ha)] at h
    cases h

theorem chrDomainFault_some {op : Operation} {a : Addr} {e : FaultInfo} (h : chrDomainFault op a = some e) :
    0x2000 ≤ a.toNat ∧ e = .address op a := by
  by_cases ha : 0x2000 ≤ a.toNat
  · rw [chrDomainFault_above op ha] at h
    exact ⟨ha, (Option.some.inj h).symm⟩
  · rw [chrDomainFault_inside op (Nat.not_le.mp ha)] at h
    cases h

/-! One step. -/

theorem fetch_next_iff {s : State} {i : Instr} {s' : State} :
    fetch s = .next (i, s') ↔
      s.block.fault = none ∧ ∃ r rest, s.pending = r :: rest ∧
        decodeRequest (mapperVariant s.block.mapper) r = .ok i ∧ s' = { s with pending := rest } := by
  unfold fetch
  cases s.block.fault with
  | some r => simp
  | none =>
    cases s.pending with
    | nil => simp
    | cons r rest =>
      simp only
      cases hd : decodeRequest (mapperVariant s.block.mapper) r with
      | error e => simp [hd]
      | ok i' => simp [hd, eq_comm]

/-- A step that goes on has run the decoded instruction on the state with its transaction taken. -/
theorem step_next_cases {s t : State} (h : step s = .next t) :
    s.block.fault = none ∧ ∃ r rest i, s.pending = r :: rest ∧
      decodeRequest (mapperVariant s.block.mapper) r = .ok i ∧ exec i { s with pending := rest } = .next t := by
  unfold step at h
  split at h
  · rename_i i s' hf
    obtain ⟨h1, r, rest, h2, h3, rfl⟩ := fetch_next_iff.mp hf
    exact ⟨h1, r, rest, i, h2, h3, h⟩
  · cases h
  · cases h

/-! The canonical form is kept. -/

theorem blockWf_iff (b : Block) : b.wf = true ↔ ∀ id, (b.buffer id).wf = true := by
  constructor
  · intro h id
    simp only [Block.wf, Bool.and_eq_true] at h
    cases id
    · exact h.1.1
    · exact h.1.2
    · exact h.2
  · intro h
    simp only [Block.wf, Bool.and_eq_true]
    exact ⟨⟨h .prgRom, h .chrRom⟩, h .chrRam⟩

/-- Writing one byte of one buffer, inside it, keeps every buffer canonical. -/
theorem blockWf_store {b : Block} {id : BufferId} {j : Nat} (v : Byte) (hj : j < (b.buffer id).length)
    (h : b.wf = true) : (b.setBuffer id ((b.buffer id).write j v)).wf = true := by
  refine (blockWf_iff _).mpr (fun id' => ?_)
  by_cases hid : id' = id
  · subst hid
    rw [setBuffer_buffer_same]
    exact bufferWf_write v hj ((blockWf_iff b).mp h _)
  · rw [setBuffer_buffer_other b hid]
    exact (blockWf_iff b).mp h _

end Sys2Proof.Machine
end

