-- ==== Sys2Proof/Laws/PerInstr.lean ====
section
/-! SUPPORT. Families of statements about every instruction, one lemma a constructor. OpcodeRow: the encoded word has
the fixed bits its row of spec/opcode_table.json gives (its match under its mask). -/

namespace Sys2Proof.Laws.OpcodeRow

/-- A mapper-port word with Z = 0 and the given OP: bits [31:24], which the MT32 rows' mask 0xFF000000 covers. -/
def IsMapperWord (op : BitVec 3) : Request → Prop
  | .mapperWord w => mapperZ w = 0b00000#5 ∧ mapperOp w = op
  | .pagerWord _ => False
  | .pagerCommand _ => False

/-- A Pager-port word with the given OP: bits [63:62], which the PC64 rows' mask covers. -/
def IsPagerWord (op : BitVec 2) : Request → Prop
  | .mapperWord _ => False
  | .pagerWord w => pagerOp w = op
  | .pagerCommand _ => False

/-- The instruction's word has its row's fixed bits. -/
def Statement : Instr → Prop
  | .m2RdPrg a => IsMapperWord 0b000#3 (encode (.m2RdPrg a))
  | .m2WrPrg a d => IsMapperWord 0b001#3 (encode (.m2WrPrg a d))
  | .m2RdChr a => IsMapperWord 0b010#3 (encode (.m2RdChr a))
  | .m2WrChr a d => IsMapperWord 0b011#3 (encode (.m2WrChr a d))
  | .m2Mirror => IsMapperWord 0b100#3 (encode (.m2Mirror))
  | .m3RdPrg a => IsMapperWord 0b000#3 (encode (.m3RdPrg a))
  | .m3WrPrg a d => IsMapperWord 0b001#3 (encode (.m3WrPrg a d))
  | .m3RdChr a => IsMapperWord 0b010#3 (encode (.m3RdChr a))
  | .m3WrChr a d => IsMapperWord 0b011#3 (encode (.m3WrChr a d))
  | .m3Mirror => IsMapperWord 0b100#3 (encode (.m3Mirror))
  | .pgRead b p o => IsPagerWord 0b00#2 (encode (.pgRead b p o))
  | .pgWrite b p o d => IsPagerWord 0b01#2 (encode (.pgWrite b p o d))
  | .pgCount b s => IsPagerWord 0b10#2 (encode (.pgCount b s))

theorem m2RdPrg (a : Addr) : Statement (.m2RdPrg a) :=
  ⟨mapperZ_wordOf _ _ _, mapperOp_wordOf _ _ _⟩
theorem m2WrPrg (a : Addr) (d : Byte) : Statement (.m2WrPrg a d) :=
  ⟨mapperZ_wordOf _ _ _, mapperOp_wordOf _ _ _⟩
theorem m2RdChr (a : Addr) : Statement (.m2RdChr a) :=
  ⟨mapperZ_wordOf _ _ _, mapperOp_wordOf _ _ _⟩
theorem m2WrChr (a : Addr) (d : Byte) : Statement (.m2WrChr a d) :=
  ⟨mapperZ_wordOf _ _ _, mapperOp_wordOf _ _ _⟩
theorem m2Mirror : Statement (.m2Mirror) :=
  ⟨mapperZ_wordOf _ _ _, mapperOp_wordOf _ _ _⟩
theorem m3RdPrg (a : Addr) : Statement (.m3RdPrg a) :=
  ⟨mapperZ_wordOf _ _ _, mapperOp_wordOf _ _ _⟩
theorem m3WrPrg (a : Addr) (d : Byte) : Statement (.m3WrPrg a d) :=
  ⟨mapperZ_wordOf _ _ _, mapperOp_wordOf _ _ _⟩
theorem m3RdChr (a : Addr) : Statement (.m3RdChr a) :=
  ⟨mapperZ_wordOf _ _ _, mapperOp_wordOf _ _ _⟩
theorem m3WrChr (a : Addr) (d : Byte) : Statement (.m3WrChr a d) :=
  ⟨mapperZ_wordOf _ _ _, mapperOp_wordOf _ _ _⟩
theorem m3Mirror : Statement (.m3Mirror) :=
  ⟨mapperZ_wordOf _ _ _, mapperOp_wordOf _ _ _⟩
theorem pgRead (b : BufferId) (p : Page) (o : Addr) : Statement (.pgRead b p o) :=
  pagerOp_wordOf _ _ _ _ _ _ _
theorem pgWrite (b : BufferId) (p : Page) (o : Addr) (d : Byte) : Statement (.pgWrite b p o d) :=
  pagerOp_wordOf _ _ _ _ _ _ _
theorem pgCount (b : BufferId) (s : PageSizeKb) : Statement (.pgCount b s) :=
  pagerOp_wordOf _ _ _ _ _ _ _

end Sys2Proof.Laws.OpcodeRow
end

