-- ==== Sys2Proof/Tests/Slice0.lean ====
section
/-! SUPPORT. Small tests, one step or one word each, with expected results from the spec's own vectors
(95_test_vectors.md, named by their ids) or worked out by hand from its rules; and, for each statement with
hypotheses, a witness that meets them. -/

namespace Sys2Proof.Tests

open Sys2Proof Sys2Proof.Machine Sys2Proof.Claims

/-! Well-formedness: an ill-formed term for the one check. -/

theorem test_wellFormed_refuses_number : (Instr.pgRead .prgRom (.number (2 ^ 32) .kb1) 0#16).wellFormed = false := by
  decide
theorem test_wellFormed_refuses_fromEnd :
    (Instr.pgWrite .chrRam (.fromEnd (2 ^ 32) .kb1) 0#16 0#8).wellFormed = false := by decide
theorem test_wellFormed_accepts_largest : (Instr.pgRead .prgRom (.number (2 ^ 32 - 1) .kb1) 0#16).wellFormed = true := by
  decide

/-! Decoding: a word for every constructor, bit by bit from 30_encoding.md R53 and R57. -/

/-- The instruction a request decodes to, if any. -/
def decoded (v : Variant) (r : Request) : Option Instr := (decodeRequest v r).toOption

theorem test_decode_m2RdPrg :
    decoded .mapper2 (.mapperWord 0b00000_000_1011111111111111_11111111#32) = some (.m2RdPrg 0xBFFF#16) := by decide
theorem test_decode_m2WrPrg :
    decoded .mapper2 (.mapperWord 0b00000_001_1111111111111110_00010010#32) = some (.m2WrPrg 0xFFFE#16 0x12#8) := by
  decide
theorem test_decode_m2RdChr :
    decoded .mapper2 (.mapperWord 0b00000_010_0001111111111111_00000000#32) = some (.m2RdChr 0x1FFF#16) := by decide
theorem test_decode_m2WrChr :
    decoded .mapper2 (.mapperWord 0b00000_011_0000000000000101_10101011#32) = some (.m2WrChr 0x0005#16 0xAB#8) := by
  decide
/-- VE.2. -/
theorem test_decode_m2Mirror : decoded .mapper2 (.mapperWord 0x04123456#32) = some .m2Mirror := by decide
/-- VE.1, for the other variant. -/
theorem test_decode_m3RdPrg : decoded .mapper3 (.mapperWord 0x008000FF#32) = some (.m3RdPrg 0x8000#16) := by decide
theorem test_decode_m3WrPrg :
    decoded .mapper3 (.mapperWord 0b00000_001_1100000100100011_00000011#32) = some (.m3WrPrg 0xC123#16 0x03#8) := by
  decide
theorem test_decode_m3RdChr :
    decoded .mapper3 (.mapperWord 0b00000_010_1111111111111111_00000000#32) = some (.m3RdChr 0xFFFF#16) := by decide
theorem test_decode_m3WrChr :
    decoded .mapper3 (.mapperWord 0b00000_011_0010000000000000_00000001#32) = some (.m3WrChr 0x2000#16 0x01#8) := by
  decide
theorem test_decode_m3Mirror : decoded .mapper3 (.mapperWord 0x04000000#32) = some .m3Mirror := by decide
theorem test_decode_pgRead :
    decoded .mapper2
      (.pagerWord 0b00_10_01_01_00000000000000000000000100000010_0000010000000011_11111111#64) =
      some (.pgRead .chrRom (.number 258 .kb4) 0x0403#16) := by decide
/-- VE.11. -/
theorem test_decode_pgRead_first :
    decoded .mapper3 (.pagerWord 0x0CFFFFFFFF000500#64) = some (.pgRead .prgRom (.first .kb16) 0x0005#16) := by decide
theorem test_decode_pgWrite :
    decoded .mapper2
      (.pagerWord 0b01_11_10_10_10000000000000000000000000000001_1111111111111110_01111111#64) =
      some (.pgWrite .chrRam (.fromEnd 2147483649 .kb8) 0xFFFE#16 0x7F#8) := by decide
/-- VE.10. -/
theorem test_decode_pgCount :
    decoded .mapper2 (.pagerWord 0x8CFFFFFFFFFFFFFF#64) = some (.pgCount .prgRom .kb16) := by decide
/-- VE.3 to VE.9. -/
theorem test_decode_refused :
    decoded .mapper2 (.mapperWord 0x05000000#32) = none ∧ decoded .mapper3 (.mapperWord 0x07FFFFFF#32) = none ∧
    decoded .mapper2 (.mapperWord 0x08800000#32) = none ∧ decoded .mapper3 (.mapperWord 0x80000000#32) = none ∧
    decoded .mapper2 (.pagerWord 0xC000000000000000#64) = none ∧
    decoded .mapper2 (.pagerWord 0x0300000000000000#64) = none ∧
    decoded .mapper2 (.pagerWord 0x8FFFFFFFFFFFFFFF#64) = none := by decide
theorem test_table_word :
    decodeTableWord 32 0x01800002 = some (.m2WrPrg 0x8000#16 0x02#8) ∧
    decodeTableWord 64 0x8C00000000000000 = some (.pgCount .prgRom .kb16) := by decide
/-- 30_encoding.md R57: an index of 2^32 travels as a structured command. -/
theorem test_assemble_large_index :
    assembleLine "PG_READ PRG_ROM, Number(4294967296, KB1), $0001 ; no word" =
      some (.pagerCommand (.read .prgRom (.number 4294967296 .kb1) 0x0001#16)) := by decide
/-- 30_encoding.md R65: an address has four hexadecimal digits, an immediate two. -/
theorem test_assemble_digits :
    assembleLine "WR_CHR $1fB9, #$eD" = some (.mapperWord 0x031FB9ED#32) ∧ assembleLine "RD_CHR $1FF" = none ∧
    assembleLine "RD_CHR $1FFG" = none ∧ assembleLine "WR_CHR $0005, #$1FF" = none := by decide

/-! Running: one operation on a small state. -/

/-- A live state of the given mapper, buffers and page count. -/
def stateOf (m : Mapper) (prg chrRom chrRam : Buffer) (pages : Nat) : State :=
  sessionOf (blockOf m { prgRom := prg, chrRom := chrRom, chrRam := chrRam, mirroring := .vertical, chrRomPages := pages }) []

/-- Four 16KB banks; the bytes listed are those the tests read. -/
def prg64 : Buffer := { length := 65536, cells := [(16383, 15), (16384, 1), (32770, 34), (32773, 37), (49152, 3), (65535, 63)] }
/-- Two 16KB banks. -/
def prg32 : Buffer := { length := 32768, cells := [(16384, 1), (32767, 1)] }
/-- Four 8KB banks. -/
def chr32 : Buffer := { length := 32768, cells := [(0, 16), (8191, 16), (16384, 18), (32767, 19)] }
/-- One 8KB bank. -/
def chr8 : Buffer := { length := 8192, cells := [(0, 238), (8191, 255)] }
/-- A length that 8192 divides and 16384 does not. -/
def odd40 : Buffer := { length := 40960, cells := [] }
/-- A length that 8192 does not divide. -/
def odd4 : Buffer := { length := 4096, cells := [] }
def empty : Buffer := { length := 0, cells := [] }

def m2 (prg0 : BitVec 4) : State := stateOf (.mapper2 prg0) prg64 chr8 empty 1
def m2ram : State := stateOf (.mapper2 0#4) prg64 empty chr8 0
def m3 (chr0 : BitVec 8) : State := stateOf (.mapper3 chr0) prg32 chr32 empty 0

/-- The response of a next state. -/
def answer (o : Host.Outcome State Fault Refusal) : Option Response :=
  match o with
  | .next t => t.response
  | .fault _ => none
  | .refused _ => none

/-- The block of a next state. -/
def blockAfter (o : Host.Outcome State Fault Refusal) : Option Block :=
  match o with
  | .next t => some t.block
  | .fault _ => none
  | .refused _ => none

/-- V2.8. -/
theorem test_m2RdPrg_low : answer (exec (.m2RdPrg 0x8005#16) (m2 2#4)) = some (.rdata 0x25#8) := by decide
/-- V2.14. -/
theorem test_m2RdPrg_no_bank :
    answer (exec (.m2RdPrg 0x8000#16) (m2 15#4)) =
      some (.fault ⟨.rdPrg, .pageBounds .prgRom (.number 15 .kb16) 0x0000#16 .bankRange⟩) := by decide
/-- V2.9: the high nibble is dropped. -/
theorem test_m2WrPrg_masks :
    (blockAfter (exec (.m2WrPrg 0xFFFF#16 0x12#8) (m2 0#4))).map (·.mapper) = some (.mapper2 2#4) := by decide
/-- V2.18. -/
theorem test_m2WrPrg_outside :
    (blockAfter (exec (.m2WrPrg 0x6000#16 0x01#8) (m2 2#4))).map (fun b => (b.mapper, b.fault)) =
      some (.mapper2 2#4, some ⟨.wrPrg, .address .wrPrg 0x6000#16⟩) := by decide
/-- V2.20. -/
theorem test_m2RdChr_rom : answer (exec (.m2RdChr 0x1FFF#16) (m2 0#4)) = some (.rdata 0xFF#8) := by decide
/-- V2.34. -/
theorem test_m2RdChr_malformed :
    answer (exec (.m2RdChr 0x0000#16) (stateOf (.mapper2 0#4) prg64 empty odd4 0)) =
      some (.fault ⟨.rdChr, .malformedImage .chrRam 4096 8192⟩) := by decide
/-- V2.27. -/
theorem test_m2WrChr_ram :
    (blockAfter (exec (.m2WrChr 0x1FFF#16 0x5A#8) m2ram)).map (fun b => b.chrRam.read 8191) = some 0x5A#8 := by decide
/-- V2.24: out of the domain a write that would be discarded faults. -/
theorem test_m2WrChr_outside :
    answer (exec (.m2WrChr 0x2000#16 0x11#8) (m2 0#4)) = some (.fault ⟨.wrChr, .address .wrChr 0x2000#16⟩) := by decide
/-- 43_mapper2_uxrom.md R96, its example. -/
theorem test_m2Mirror : answer (exec .m2Mirror (m2 0#4)) = some (.mirroring .vertical) := by decide
/-- V3.4. -/
theorem test_m3RdPrg_high : answer (exec (.m3RdPrg 0xFFFF#16) (m3 3#8)) = some (.rdata 0x01#8) := by decide
/-- V3.13. -/
theorem test_m3RdPrg_low : answer (exec (.m3RdPrg 0x8000#16) (m3 255#8)) = some (.rdata 0x00#8) := by decide
/-- V3.10: no mask. -/
theorem test_m3WrPrg_unmasked :
    (blockAfter (exec (.m3WrPrg 0x8000#16 0xFF#8) (m3 0#8))).map (·.mapper) = some (.mapper3 255#8) := by decide
/-- V3.8. -/
theorem test_m3RdChr_bank : answer (exec (.m3RdChr 0x1FFF#16) (m3 3#8)) = some (.rdata 0x13#8) := by decide
/-- V3.11. -/
theorem test_m3RdChr_no_bank :
    answer (exec (.m3RdChr 0x0000#16) (m3 4#8)) =
      some (.fault ⟨.rdChr, .pageBounds .chrRom (.number 4 .kb8) 0x0000#16 .bankRange⟩) := by decide
/-- V3.14. -/
theorem test_m3WrChr_discards :
    blockAfter (exec (.m3WrChr 0x0000#16 0xFF#8) (m3 4#8)) = some (m3 4#8).block := by decide
/-- V3.17. -/
theorem test_m3WrChr_outside :
    answer (exec (.m3WrChr 0x2000#16 0x00#8) (m3 0#8)) = some (.fault ⟨.wrChr, .address .wrChr 0x2000#16⟩) := by decide
/-- 44_mapper3_cnrom.md R104. -/
theorem test_m3Mirror : answer (exec .m3Mirror (m3 9#8)) = some (.mirroring .vertical) := by decide
/-- VP.13. -/
theorem test_pgRead_fromEnd :
    answer (exec (.pgRead .prgRom (.fromEnd 1 .kb16) 0x0002#16) (m2 0#4)) = some (.rdata 0x22#8) := by decide
/-- VP.17 and VP.18: the offset bound, and the bank's check before it. -/
theorem test_pgRead_bounds :
    answer (exec (.pgRead .prgRom (.number 0 .kb16) 0x4000#16) (m2 0#4)) =
      some (.fault ⟨.pgRead, .pageBounds .prgRom (.number 0 .kb16) 0x4000#16 .offsetRange⟩) ∧
    answer (exec (.pgRead .prgRom (.number 4 .kb16) 0x4000#16) (m2 0#4)) =
      some (.fault ⟨.pgRead, .pageBounds .prgRom (.number 4 .kb16) 0x4000#16 .bankRange⟩) := by decide
/-- VP.28. -/
theorem test_pgWrite_rom :
    (blockAfter (exec (.pgWrite .prgRom (.number 2 .kb16) 0x0010#16 0x77#8) (m2 0#4))).map
      (fun b => (b.prgRom.read 32784, b.prgRom.read 32773)) = some (0x77#8, 0x25#8) := by decide
/-- Writing the byte an unlisted index reads as removes the cell, so the memory stays canonical. -/
theorem test_pgWrite_canonical :
    (blockAfter (exec (.pgWrite .chrRom (.last .kb8) 0x1FFF#16 0x00#8) (m2 0#4))).map (·.chrRom.cells) =
      some [(0, 238)] := by decide
/-- VP.1, VP.4. -/
theorem test_pgCount :
    answer (exec (.pgCount .prgRom .kb16) (m2 0#4)) = some (.count 4) ∧
    answer (exec (.pgCount .prgRom .kb1) (m2 0#4)) = some (.count 64) := by decide
/-- VP.5. -/
theorem test_pgCount_malformed :
    answer (exec (.pgCount .prgRom .kb16) (stateOf (.mapper2 0#4) odd40 empty empty 0)) =
      some (.fault ⟨.pgCount, .malformedImage .prgRom 40960 16384⟩) := by decide

/-- The table word of WR_PRG $8000, #$02 is the first thing run after reset, and takes effect. -/
theorem test_step_from_reset :
    (blockAfter (step (State.reset.withFetchWord 32 0x01800002))).map (·.mapper) = some (.mapper2 2#4) := by decide
/-- VC.1. -/
theorem test_construct_refuses :
    construct 1 { prgRom := prg64, chrRom := empty, chrRam := chr8, mirroring := .vertical, chrRomPages := 0 } =
      .error (.unsupportedMapper 1) := rfl
/-- 10_state.md R22: a byte sequence as a buffer. -/
theorem test_ofBytes : Buffer.ofBytes [7#8, 0#8, 9#8] = { length := 3, cells := [(0, 7), (2, 9)] } := by decide
/-- The three buffers of the fixtures are canonical. -/
theorem test_fixtures_wf : (m2 0#4).block.wf = true ∧ m2ram.block.wf = true ∧ (m3 0#8).block.wf = true := by decide

/-! Witnesses: for each statement with hypotheses, concrete values that meet them all, for each clause at the ends of
its range. -/

/-- What `exec` makes of a state, where it makes one. -/
def after (i : Instr) (s : State) : State :=
  match exec i s with
  | .next t => t
  | .fault _ => s
  | .refused _ => s

/-- What `step` makes of a state, where it makes one. -/
def stepped (s : State) : State :=
  match step s with
  | .next t => t
  | .fault _ => s
  | .refused _ => s

/-- A live block of Mapper2 with that register. -/
abbrev Live2 (s : State) (prg0 : BitVec 4) : Prop := s.block.mapper = .mapper2 prg0 ∧ s.block.fault = none

/-- A live block of Mapper3 with that register. -/
abbrev Live3 (s : State) (chr0 : BitVec 8) : Prop := s.block.mapper = .mapper3 chr0 ∧ s.block.fault = none

/-- Buffers of no whole pages: with CHR RAM (no CHR ROM pages), with CHR ROM, and for Mapper3. -/
def m2odd : State := stateOf (.mapper2 0#4) odd40 empty odd4 0
def m2oddRom : State := stateOf (.mapper2 0#4) odd40 odd4 empty 1
def m3odd : State := stateOf (.mapper3 0#8) odd40 odd4 empty 0
/-- Empty buffers. -/
def m2none : State := stateOf (.mapper2 0#4) empty empty empty 0
def m2noneRom : State := stateOf (.mapper2 0#4) empty empty empty 1
def m3none : State := stateOf (.mapper3 0#8) empty empty empty 0
/-- A state that took the fault of an RD_PRG below 0x8000. -/
def m2faulted : State := after (.m2RdPrg 0x7FFF#16) (m2 0#4)

theorem witness_DecodeInvertsEncode :
    (Instr.pgRead .chrRam (.number (2 ^ 32 - 1) .kb1) 0xFFFF#16).wellFormed = true ∧
    (Instr.pgRead .chrRam (.number (2 ^ 32 - 1) .kb1) 0xFFFF#16).availableOn .mapper3 = true ∧
    (Instr.m2WrChr 0xFFFF#16 0xFF#8).wellFormed = true ∧
    (Instr.m2WrChr 0xFFFF#16 0xFF#8).availableOn .mapper2 = true := by decide

theorem witness_DecodedInstructionIsTheVariantsOwn :
    decodeRequest .mapper3 (.mapperWord 0x030005AB#32) = .ok (.m3WrChr 0x0005#16 0xAB#8) ∧
    (∀ c, Request.mapperWord 0x030005AB#32 ≠ .pagerCommand c) ∧
    decodeRequest .mapper2 (.pagerCommand (.read .prgRom (.number (2 ^ 32) .kb1) 0#16)) =
      .ok (.pgRead .prgRom (.number (2 ^ 32) .kb1) 0#16) :=
  ⟨rfl, fun _ => nofun, rfl⟩

theorem witness_IgnoredFieldsDecideNothing_mapper :
    ((0x04000000#32).extractLsb' 24 8 = (0x04FFFFFF#32).extractLsb' 24 8 ∧
      (0x04000000#32).extractLsb' 24 3 = 0b100#3) ∧
    ((0x00800000#32).extractLsb' 24 8 = (0x008000FF#32).extractLsb' 24 8 ∧
      (0x00800000#32).extractLsb' 24 3 = 0b000#3 ∧
      (0x00800000#32).extractLsb' 8 16 = (0x008000FF#32).extractLsb' 8 16) ∧
    ((0x021FFF00#32).extractLsb' 24 8 = (0x021FFFFF#32).extractLsb' 24 8 ∧
      (0x021FFF00#32).extractLsb' 24 3 = 0b010#3 ∧
      (0x021FFF00#32).extractLsb' 8 16 = (0x021FFFFF#32).extractLsb' 8 16) := by decide

/-- The four clauses: PG_COUNT, PG_READ with an index, PG_READ and PG_WRITE without one. -/
theorem witness_IgnoredFieldsDecideNothing_pager :
    ((0x8C00000000000000#64).extractLsb' 62 2 = 0b10#2 ∧
      (0x8C00000000000000#64).extractLsb' 62 2 = (0xBCFFFFFFFFFFFFFF#64).extractLsb' 62 2 ∧
      (0x8C00000000000000#64).extractLsb' 56 4 = (0xBCFFFFFFFFFFFFFF#64).extractLsb' 56 4) ∧
    ((0x2C000000033FFF00#64).extractLsb' 62 2 = 0b00#2 ∧
      (0x2C000000033FFF00#64).extractLsb' 62 2 = (0x2C000000033FFFFF#64).extractLsb' 62 2 ∧
      (0x2C000000033FFF00#64).extractLsb' 56 4 = (0x2C000000033FFFFF#64).extractLsb' 56 4 ∧
      (0x2C000000033FFF00#64).extractLsb' 60 2 = (0x2C000000033FFFFF#64).extractLsb' 60 2 ∧
      (0x2C000000033FFF00#64).extractLsb' 8 16 = (0x2C000000033FFFFF#64).extractLsb' 8 16 ∧
      (0x2C000000033FFF00#64).extractLsb' 24 32 = (0x2C000000033FFFFF#64).extractLsb' 24 32) ∧
    ((0x1900000000001000#64).extractLsb' 62 2 = 0b00#2 ∧ (0x1900000000001000#64).extractLsb' 60 2 = 0b01#2 ∧
      (0x1900000000001000#64).extractLsb' 62 2 = (0x19FFFFFFFF0010FF#64).extractLsb' 62 2 ∧
      (0x1900000000001000#64).extractLsb' 56 4 = (0x19FFFFFFFF0010FF#64).extractLsb' 56 4 ∧
      (0x1900000000001000#64).extractLsb' 60 2 = (0x19FFFFFFFF0010FF#64).extractLsb' 60 2 ∧
      (0x1900000000001000#64).extractLsb' 8 16 = (0x19FFFFFFFF0010FF#64).extractLsb' 8 16) ∧
    ((0x4A000000000005AB#64).extractLsb' 62 2 = 0b01#2 ∧ (0x4A000000000005AB#64).extractLsb' 60 2 = 0b00#2 ∧
      (0x4A000000000005AB#64).extractLsb' 62 2 = (0x4AFFFFFFFF0005AB#64).extractLsb' 62 2 ∧
      (0x4A000000000005AB#64).extractLsb' 56 4 = (0x4AFFFFFFFF0005AB#64).extractLsb' 56 4 ∧
      (0x4A000000000005AB#64).extractLsb' 60 2 = (0x4AFFFFFFFF0005AB#64).extractLsb' 60 2 ∧
      (0x4A000000000005AB#64).extractLsb' 8 16 = (0x4AFFFFFFFF0005AB#64).extractLsb' 8 16 ∧
      (0x4A000000000005AB#64).extractLsb' 0 8 = (0x4AFFFFFFFF0005AB#64).extractLsb' 0 8) := by decide

/-- The last clause's hypotheses, and one refused word of each of the four reserved patterns. -/
theorem witness_RefusedWordsAreTheReservedOnes :
    ((m2 0#4).block.fault = none ∧
      (issueNext (m2 0#4) (.mapperWord 0x05000000#32)).pending = [.mapperWord 0x05000000#32] ∧
      decoded (mapperVariant (m2 0#4).block.mapper) (.mapperWord 0x05000000#32) = none) ∧
    (0x08000000#32).extractLsb' 27 5 ≠ 0#5 ∧ 5 ≤ ((0x05000000#32).extractLsb' 24 3).toNat ∧
    (0xC000000000000000#64).extractLsb' 62 2 = 0b11#2 ∧ (0x0300000000000000#64).extractLsb' 56 2 = 0b11#2 := by
  decide

theorem witness_StepRunsTheDecodedInstruction :
    (issueNext (m2 0#4) (.mapperWord 0x01800002#32)).block.fault = none ∧
    (issueNext (m2 0#4) (.mapperWord 0x01800002#32)).pending = .mapperWord 0x01800002#32 :: [] ∧
    decodeRequest (mapperVariant (issueNext (m2 0#4) (.mapperWord 0x01800002#32)).block.mapper)
      (.mapperWord 0x01800002#32) = .ok (.m2WrPrg 0x8000#16 0x02#8) := ⟨rfl, rfl, rfl⟩

/-- A word that decodes and one that does not. -/
theorem witness_EveryOperationEndsInOneOfThreeWays :
    (issueNext (m3 0#8) (.mapperWord 0x04000000#32)).block.fault = none ∧
    (issueNext (m3 0#8) (.mapperWord 0x04000000#32)).pending = .mapperWord 0x04000000#32 :: [] ∧
    decodeRequest (mapperVariant (m3 0#8).block.mapper) (.mapperWord 0x04000000#32) = .ok .m3Mirror ∧
    (issueNext (m3 0#8) (.mapperWord 0x08000000#32)).block.fault = none ∧
    (issueNext (m3 0#8) (.mapperWord 0x08000000#32)).pending = .mapperWord 0x08000000#32 :: [] ∧
    ∃ e, decodeRequest (mapperVariant (m3 0#8).block.mapper) (.mapperWord 0x08000000#32) = .error e :=
  ⟨rfl, rfl, rfl, rfl, rfl, _, rfl⟩

theorem witness_FaultsArePrecise :
    exec (.m2RdPrg 0x7FFF#16) (m2 0#4) = .next m2faulted ∧
    m2faulted.block.fault = some ⟨.rdPrg, .address .rdPrg 0x7FFF#16⟩ := ⟨rfl, rfl⟩

theorem witness_FaultedBlockHasNoStep :
    m2faulted.block.fault = some ⟨.rdPrg, .address .rdPrg 0x7FFF#16⟩ ∧
    ∃ b, construct 2 { prgRom := prg64, chrRom := empty, chrRam := chr8, mirroring := .other 4, chrRomPages := 0 } =
      .ok b := ⟨rfl, _, rfl⟩

/-- A fault of each kind, and the WR_CHR fault of the last clause. -/
theorem witness_FaultKindsAndTheirRaisers :
    (exec (.m2RdPrg 0x7FFF#16) (m2 0#4) = .next m2faulted ∧
      m2faulted.block.fault = some ⟨.rdPrg, .address .rdPrg 0x7FFF#16⟩ ∧
      recordKind ⟨.rdPrg, .address .rdPrg 0x7FFF#16⟩ = .addressFault) ∧
    (exec (.m3RdChr 0x1FFF#16) (m3 4#8) = .next (after (.m3RdChr 0x1FFF#16) (m3 4#8)) ∧
      (after (.m3RdChr 0x1FFF#16) (m3 4#8)).block.fault =
        some ⟨.rdChr, .pageBounds .chrRom (.number 4 .kb8) 0x1FFF#16 .bankRange⟩ ∧
      recordKind ⟨.rdChr, .pageBounds .chrRom (.number 4 .kb8) 0x1FFF#16 .bankRange⟩ = .pageBoundsFault) ∧
    (exec (.m2WrChr 0x1FFF#16 0#8) m2odd = .next (after (.m2WrChr 0x1FFF#16 0#8) m2odd) ∧
      (after (.m2WrChr 0x1FFF#16 0#8) m2odd).block.fault = some ⟨.wrChr, .malformedImage .chrRam 4096 8192⟩ ∧
      recordKind ⟨.wrChr, .malformedImage .chrRam 4096 8192⟩ = .malformedImageFault ∧
      (Instr.m2WrChr 0x1FFF#16 0#8).operation = .wrChr ∧
      recordKind ⟨.wrChr, .malformedImage .chrRam 4096 8192⟩ ≠ .addressFault) :=
  ⟨⟨rfl, rfl, rfl⟩, ⟨rfl, rfl, rfl⟩, ⟨rfl, rfl, rfl, rfl, nofun⟩⟩

theorem witness_MapperFaultsAreNeverOffsetRange :
    (Instr.m3RdChr 0x1FFF#16).operation ∈ [Operation.rdPrg, .wrPrg, .rdChr, .wrChr, .mirror] ∧
    exec (.m3RdChr 0x1FFF#16) (m3 4#8) = .next (after (.m3RdChr 0x1FFF#16) (m3 4#8)) ∧
    (after (.m3RdChr 0x1FFF#16) (m3 4#8)).block.fault =
      some ⟨.rdChr, .pageBounds .chrRom (.number 4 .kb8) 0x1FFF#16 .bankRange⟩ := ⟨by decide, rfl, rfl⟩

/-- Both sides of 0x8000, for each of the four instructions. -/
theorem witness_ProgramDomainStartsAt8000 :
    (m2 0#4).block.fault = none ∧ (m3 0#8).block.fault = none ∧
    (Instr.m2RdPrg 0x7FFF#16).availableOn (mapperVariant (m2 0#4).block.mapper) = true ∧
    (Instr.m2WrPrg 0x8000#16 0#8).availableOn (mapperVariant (m2 0#4).block.mapper) = true ∧
    (Instr.m3RdPrg 0x8000#16).availableOn (mapperVariant (m3 0#8).block.mapper) = true ∧
    (Instr.m3WrPrg 0x7FFF#16 0#8).availableOn (mapperVariant (m3 0#8).block.mapper) = true ∧
    Instr.m2RdPrg 0x7FFF#16 ∈
      [Instr.m2RdPrg 0x7FFF#16, .m2WrPrg 0x7FFF#16 0#8, .m3RdPrg 0x7FFF#16, .m3WrPrg 0x7FFF#16 0#8] ∧
    (0x7FFF#16).toNat < 0x8000 ∧ 0x8000 ≤ (0x8000#16).toNat := by decide

/-- Both sides of 0x2000, for each of the four instructions. -/
theorem witness_CharacterDomainEndsAt2000 :
    (m2 0#4).block.fault = none ∧ (m3 0#8).block.fault = none ∧
    (Instr.m2RdChr 0x1FFF#16).availableOn (mapperVariant (m2 0#4).block.mapper) = true ∧
    (Instr.m2WrChr 0x2000#16 0#8).availableOn (mapperVariant (m2 0#4).block.mapper) = true ∧
    (Instr.m3RdChr 0x2000#16).availableOn (mapperVariant (m3 0#8).block.mapper) = true ∧
    (Instr.m3WrChr 0x1FFF#16 0#8).availableOn (mapperVariant (m3 0#8).block.mapper) = true ∧
    Instr.m3WrChr 0x1FFF#16 0#8 ∈
      [Instr.m2RdChr 0x1FFF#16, .m2WrChr 0x1FFF#16 0#8, .m3RdChr 0x1FFF#16, .m3WrChr 0x1FFF#16 0#8] ∧
    0x2000 ≤ (0x2000#16).toNat ∧ (0x1FFF#16).toNat < 0x2000 := by decide

/-- The six clauses: the last bank there is at both ends of the low window, the high window, below the domain, a
malformed image, the first bank there is not, an empty image. -/
theorem witness_Mapper2ReadsProgramByte :
    (Live2 (m2 3#4) 3#4 ∧ 0x8000 ≤ (0x8000#16).toNat ∧ (0xBFFF#16).toNat ≤ 0xBFFF ∧
      (m2 3#4).block.prgRom.length % 16384 = 0 ∧ (3#4).toNat < (m2 3#4).block.prgRom.length / 16384) ∧
    (Live2 (m2 15#4) 15#4 ∧ 0xC000 ≤ (0xC000#16).toNat ∧ (m2 15#4).block.prgRom.length % 16384 = 0 ∧
      (m2 15#4).block.prgRom.length ≠ 0) ∧
    (0x7FFF#16).toNat < 0x8000 ∧
    (Live2 m2odd 0#4 ∧ m2odd.block.prgRom.length % 16384 ≠ 0) ∧
    (Live2 (m2 4#4) 4#4 ∧ (m2 4#4).block.prgRom.length % 16384 = 0 ∧
      (m2 4#4).block.prgRom.length / 16384 ≤ (4#4).toNat) ∧
    (Live2 m2none 0#4 ∧ m2none.block.prgRom.length = 0) := by decide

theorem witness_Mapper2SelectsBank :
    Live2 (m2 2#4) 2#4 ∧ 0x8000 ≤ (0x8000#16).toNat ∧ (0x7FFF#16).toNat < 0x8000 := by decide

theorem witness_Mapper2ReadsCharacterByte :
    (Live2 m2ram 0#4 ∧ (0x1FFF#16).toNat < 0x2000 ∧ m2ram.block.chrRomPages = 0 ∧
      m2ram.block.chrRam.length % 8192 = 0 ∧ m2ram.block.chrRam.length ≠ 0) ∧
    (Live2 (m2 0#4) 0#4 ∧ (m2 0#4).block.chrRomPages ≠ 0 ∧ (m2 0#4).block.chrRom.length % 8192 = 0 ∧
      (m2 0#4).block.chrRom.length ≠ 0) ∧
    0x2000 ≤ (0x2000#16).toNat ∧
    (Live2 m2odd 0#4 ∧ m2odd.block.chrRomPages = 0 ∧ m2odd.block.chrRam.length % 8192 ≠ 0) ∧
    (Live2 m2oddRom 0#4 ∧ m2oddRom.block.chrRomPages ≠ 0 ∧ m2oddRom.block.chrRom.length % 8192 ≠ 0) ∧
    (Live2 m2none 0#4 ∧ m2none.block.chrRomPages = 0 ∧ m2none.block.chrRam.length = 0) ∧
    (Live2 m2noneRom 0#4 ∧ m2noneRom.block.chrRomPages ≠ 0 ∧ m2noneRom.block.chrRom.length = 0) := by decide

theorem witness_Mapper2WritesCharacterByte :
    (Live2 m2ram 0#4 ∧ (0x1FFF#16).toNat < 0x2000 ∧ m2ram.block.chrRomPages = 0 ∧
      m2ram.block.chrRam.length % 8192 = 0 ∧ m2ram.block.chrRam.length ≠ 0) ∧
    (Live2 m2noneRom 0#4 ∧ m2noneRom.block.chrRomPages ≠ 0) ∧
    0x2000 ≤ (0x2000#16).toNat ∧
    (Live2 m2odd 0#4 ∧ m2odd.block.chrRomPages = 0 ∧ m2odd.block.chrRam.length % 8192 ≠ 0) ∧
    (Live2 m2none 0#4 ∧ m2none.block.chrRomPages = 0 ∧ m2none.block.chrRam.length = 0) := by decide

theorem witness_Mapper2IsASingleRegisterAutomaton :
    (∃ b, construct 2 { prgRom := empty, chrRom := empty, chrRam := empty, mirroring := .vertical, chrRomPages := 0 } =
      .ok b) ∧
    (Live2 (m2 15#4) 15#4 ∧ 0x8000 ≤ (0xFFFF#16).toNat) ∧
    (exec .m2Mirror (m2 9#4) = .next (after .m2Mirror (m2 9#4)) ∧
      (∀ a v, Instr.m2Mirror = .m2WrPrg a v → a.toNat < 0x8000)) :=
  ⟨⟨_, rfl⟩, by decide, rfl, fun _ _ h => by cases h⟩

theorem witness_Mapper2BankIsSeenByTheNextRead :
    (Live2 (m2 0#4) 0#4 ∧ 0x8000 ≤ (0x8000#16).toNat ∧ 0x8000 ≤ (0xBFFF#16).toNat ∧
      (m2 0#4).block.prgRom.length % 16384 = 0 ∧ (m2 0#4).block.prgRom.length ≠ 0) ∧
    ((0xBFFF#16).toNat ≤ 0xBFFF ∧ (0xF3#8).toNat % 16 < (m2 0#4).block.prgRom.length / 16384) ∧
    (m2 0#4).block.prgRom.length / 16384 ≤ (0x04#8).toNat % 16 ∧ 0xC000 ≤ (0xC000#16).toNat := by decide

/-- With a store to the next byte in between. -/
theorem witness_CharacterRamRoundTrip :
    m2ram.block.mapper = .mapper2 0#4 ∧ m2ram.block.chrRomPages = 0 ∧
    exec (.m2WrChr 0x1FFE#16 0x5A#8) m2ram = .next (after (.m2WrChr 0x1FFE#16 0x5A#8) m2ram) ∧
    (after (.m2WrChr 0x1FFE#16 0x5A#8) m2ram).block.fault = none ∧
    (∀ i ∈ [Instr.m2WrChr 0x1FFF#16 0x01#8, .m2Mirror],
      storedByte m2ram.block i ≠ some (.chrRam, (0x1FFE#16).toNat)) ∧
    ∃ u, runInstrs [.m2WrChr 0x1FFF#16 0x01#8, .m2Mirror] (after (.m2WrChr 0x1FFE#16 0x5A#8) m2ram) = .next u ∧
      u.block.fault = none := ⟨rfl, rfl, rfl, rfl, by decide, _, rfl, rfl⟩

theorem witness_Mapper3ReadsProgramByte :
    (Live3 (m3 255#8) 255#8 ∧ 0x8000 ≤ (0x8000#16).toNat ∧ (0xBFFF#16).toNat ≤ 0xBFFF ∧ 0xC000 ≤ (0xC000#16).toNat ∧
      (m3 255#8).block.prgRom.length % 16384 = 0 ∧ (m3 255#8).block.prgRom.length ≠ 0) ∧
    (0x7FFF#16).toNat < 0x8000 ∧
    (Live3 m3odd 0#8 ∧ m3odd.block.prgRom.length % 16384 ≠ 0) ∧
    (Live3 m3none 0#8 ∧ m3none.block.prgRom.length = 0) := by decide

theorem witness_Mapper3SelectsBank :
    Live3 (m3 2#8) 2#8 ∧ 0x8000 ≤ (0x8000#16).toNat ∧ (0x7FFF#16).toNat < 0x8000 := by decide

theorem witness_Mapper3ReadsCharacterByte :
    (Live3 (m3 3#8) 3#8 ∧ (0x1FFF#16).toNat < 0x2000 ∧ (m3 3#8).block.chrRom.length % 8192 = 0 ∧
      (3#8).toNat < (m3 3#8).block.chrRom.length / 8192) ∧
    0x2000 ≤ (0x2000#16).toNat ∧
    (Live3 m3odd 0#8 ∧ m3odd.block.chrRom.length % 8192 ≠ 0) ∧
    (Live3 (m3 4#8) 4#8 ∧ (m3 4#8).block.chrRom.length / 8192 ≤ (4#8).toNat) := by decide

theorem witness_Mapper3DiscardsCharacterWrites :
    Live3 (m3 4#8) 4#8 ∧ (0x1FFF#16).toNat < 0x2000 ∧ 0x2000 ≤ (0x2000#16).toNat := by decide

theorem witness_Mapper3IsASingleRegisterAutomaton :
    (∃ b, construct 3 { prgRom := empty, chrRom := empty, chrRam := empty, mirroring := .vertical, chrRomPages := 0 } =
      .ok b) ∧
    (Live3 (m3 255#8) 255#8 ∧ 0x8000 ≤ (0xFFFF#16).toNat) ∧
    (exec (.m3WrPrg 0x7FFF#16 1#8) (m3 9#8) = .next (after (.m3WrPrg 0x7FFF#16 1#8) (m3 9#8)) ∧
      (∀ a v, Instr.m3WrPrg 0x7FFF#16 1#8 = .m3WrPrg a v → a.toNat < 0x8000)) :=
  ⟨⟨_, rfl⟩, by decide, rfl, fun _ _ h => by cases h; decide⟩

theorem witness_UnmaskedRegisterFaultsAtTheRead :
    Live3 (m3 0#8) 0#8 ∧ 0x8000 ≤ (0x8000#16).toNat ∧ (0x1FFF#16).toNat < 0x2000 ∧
    (m3 0#8).block.chrRom.length % 8192 = 0 ∧ (m3 0#8).block.chrRom.length / 8192 ≤ (4#8).toNat ∧
    (3#8).toNat < (m3 0#8).block.chrRom.length / 8192 := by decide

theorem witness_Mapper3ProgramReadsIgnoreTheRegister :
    (m3 4#8).block.mapper = .mapper3 4#8 ∧
    exec (.m3RdPrg 0xFFFF#16) (m3 4#8) = .next (after (.m3RdPrg 0xFFFF#16) (m3 4#8)) := ⟨rfl, rfl⟩

/-- Both clauses; the second after a session of two operations. -/
theorem witness_MirrorReturnsTheHeader :
    (Instr.m2Mirror ∈ [Instr.m2Mirror, .m3Mirror] ∧ (m2 0#4).block.fault = none ∧
      Instr.m2Mirror.availableOn (mapperVariant (m2 0#4).block.mapper) = true) ∧
    ∃ t, runInstrs [.m3WrPrg 0xFFFF#16 3#8, .m3RdChr 0x1FFF#16] (m3 0#8) = .next t ∧ t.block.fault = none ∧
      Instr.m3Mirror.availableOn (mapperVariant (m3 0#8).block.mapper) = true :=
  ⟨by decide, _, rfl, rfl, rfl⟩

/-- The three clauses. -/
theorem witness_ProgramAndCharacterSpacesAreIndependent :
    ((Instr.m2WrChr 0#16 9#8).operation ∈ [Operation.rdChr, .wrChr] ∧ (Instr.m2RdPrg 0xBFFF#16).operation = .rdPrg ∧
      exec (.m2WrChr 0#16 9#8) m2ram = .next (after (.m2WrChr 0#16 9#8) m2ram) ∧
      (after (.m2WrChr 0#16 9#8) m2ram).block.fault = none ∧
      exec (.m2RdPrg 0xBFFF#16) m2ram = .next (after (.m2RdPrg 0xBFFF#16) m2ram)) ∧
    (0xC000 ≤ (0xC000#16).toNat ∧
      exec (.m2WrPrg 0x8000#16 2#8) (m2 0#4) = .next (after (.m2WrPrg 0x8000#16 2#8) (m2 0#4)) ∧
      (after (.m2WrPrg 0x8000#16 2#8) (m2 0#4)).block.fault = none ∧
      exec (.m2RdPrg 0xC000#16) (m2 0#4) = .next (after (.m2RdPrg 0xC000#16) (m2 0#4)) ∧
      exec (.m2RdChr 0x1FFF#16) (m2 0#4) = .next (after (.m2RdChr 0x1FFF#16) (m2 0#4))) ∧
    (exec (.m3WrPrg 0x8000#16 3#8) (m3 0#8) = .next (after (.m3WrPrg 0x8000#16 3#8) (m3 0#8)) ∧
      (after (.m3WrPrg 0x8000#16 3#8) (m3 0#8)).block.fault = none ∧ (0x1FFF#16).toNat < 0x2000 ∧
      (m3 0#8).block.chrRom.length % 8192 = 0 ∧ (3#8).toNat < (m3 0#8).block.chrRom.length / 8192) :=
  ⟨⟨by decide, rfl, rfl, rfl, rfl⟩, ⟨by decide, rfl, rfl, rfl, rfl⟩, rfl, rfl, by decide⟩

/-- A WR_CHR that does write CHR_RAM. -/
theorem witness_MapperOperationsWriteNoRom :
    (Instr.m2WrChr 0#16 9#8).operation ∈ [Operation.rdPrg, .wrPrg, .rdChr, .wrChr, .mirror] ∧
    exec (.m2WrChr 0#16 9#8) m2ram = .next (after (.m2WrChr 0#16 9#8) m2ram) ∧
    (after (.m2WrChr 0#16 9#8) m2ram).block.chrRam ≠ m2ram.block.chrRam := ⟨by decide, rfl, by decide⟩

/-- Each clause, a length of 0 among them, and a resolution that ends in a fault. -/
theorem witness_PageCountDividesExactlyOrFaults :
    ((m2 0#4).block.buffer .prgRom).length % sizeBytes .kb16 = 0 ∧
    pageSize (.last .kb16) = .kb16 ∧
    pagerIndex (m2 0#4).block .prgRom (.last .kb16) 0x4000#16 =
      .error (.pageBounds .prgRom (.last .kb16) 0x4000#16 .offsetRange) ∧
    (m2odd.block.buffer .prgRom).length % sizeBytes .kb16 ≠ 0 ∧ (m2none.block.buffer .chrRam).length = 0 :=
  ⟨by decide, rfl, rfl, by decide, rfl⟩

/-- A page count of 4 with the largest distance in it and the first beyond, and a page count of 0. -/
theorem witness_SelectorsReduceToNumbers :
    (pageCount (m2 0#4).block .prgRom .kb16 = .ok 4 ∧ 1 ≤ 4 ∧ 3 < 4) ∧ 4 ≤ 4 ∧
    pageCount m2none.block .prgRom .kb16 = .ok 0 := ⟨⟨rfl, by decide, by decide⟩, by decide, rfl⟩

theorem witness_ResolvedIndexIsInItsPage :
    pagerIndex (m2 0#4).block .prgRom (.fromEnd 3 .kb16) 0x3FFF#16 = .ok 16383 ∧
    pagerIndex (m2 0#4).block .prgRom (.number 3 .kb16) 0x3FFF#16 = .ok 65535 := ⟨rfl, rfl⟩

/-- The four clauses of PG_READ and of PG_WRITE: the last byte of the last bank, a malformed image, a bank that is
not there, and the first offset out of range. -/
theorem witness_PagerReadsAndWritesSelectedByte :
    ((m2 0#4).block.fault = none ∧ ((m2 0#4).block.buffer .prgRom).length % sizeBytes (pageSize (.last .kb16)) = 0 ∧
      SelectsBank (((m2 0#4).block.buffer .prgRom).length / sizeBytes (pageSize (.last .kb16))) (.last .kb16) 3 ∧
      3 < ((m2 0#4).block.buffer .prgRom).length / sizeBytes (pageSize (.last .kb16)) ∧
      (0x3FFF#16).toNat < sizeBytes (pageSize (.last .kb16))) ∧
    (m2odd.block.fault = none ∧
      (m2odd.block.buffer .prgRom).length % sizeBytes (pageSize (.first .kb16)) ≠ 0) ∧
    (m2none.block.fault = none ∧
      (m2none.block.buffer .prgRom).length % sizeBytes (pageSize (.last .kb16)) = 0 ∧
      ∀ n, SelectsBank ((m2none.block.buffer .prgRom).length / sizeBytes (pageSize (.last .kb16))) (.last .kb16) n →
        (m2none.block.buffer .prgRom).length / sizeBytes (pageSize (.last .kb16)) ≤ n) ∧
    (sizeBytes (pageSize (.last .kb16)) ≤ (0x4000#16).toNat) :=
  ⟨⟨rfl, by decide, rfl, by decide, by decide⟩, ⟨rfl, by decide⟩, ⟨rfl, rfl, fun n _ => Nat.zero_le n⟩, by decide⟩

theorem witness_PagerCountsPages :
    (m2none.block.fault = none ∧ (m2none.block.buffer .prgRom).length % sizeBytes .kb1 = 0) ∧
    (m2odd.block.fault = none ∧ (m2odd.block.buffer .prgRom).length % sizeBytes .kb16 ≠ 0) := by decide

/-- The same byte by another selector, and the byte before it. -/
theorem witness_PagerWriteIsReadBack :
    exec (.pgWrite .prgRom (.last .kb16) 0x3FFF#16 7#8) (m2 0#4) =
      .next (after (.pgWrite .prgRom (.last .kb16) 0x3FFF#16 7#8) (m2 0#4)) ∧
    (after (.pgWrite .prgRom (.last .kb16) 0x3FFF#16 7#8) (m2 0#4)).block.fault = none ∧
    pagerIndex (m2 0#4).block .prgRom (.last .kb16) 0x3FFF#16 = .ok 65535 ∧
    pagerIndex (m2 0#4).block .prgRom (.number 63 .kb1) 0x03FF#16 = .ok 65535 ∧
    pagerIndex (m2 0#4).block .prgRom (.number 63 .kb1) 0x03FE#16 = .ok 65534 := ⟨rfl, rfl, rfl, rfl, rfl⟩

/-- One that completes and one that faults. -/
theorem witness_ReadsAndQueriesChangeNothing :
    (Instr.pgCount .prgRom .kb16).operation ∈ [Operation.rdPrg, .rdChr, .mirror, .pgRead, .pgCount] ∧
    exec (.pgCount .prgRom .kb16) (m2 0#4) = .next (after (.pgCount .prgRom .kb16) (m2 0#4)) ∧
    (Instr.m2RdPrg 0x7FFF#16).operation ∈ [Operation.rdPrg, .rdChr, .mirror, .pgRead, .pgCount] ∧
    exec (.m2RdPrg 0x7FFF#16) (m2 0#4) = .next m2faulted := ⟨by decide, rfl, by decide, rfl⟩

/-- One that completes and one that faults. -/
theorem witness_BankSelectChangesOnlyTheRegister :
    (Instr.m2WrPrg 0x8000#16 9#8).operation = .wrPrg ∧
    exec (.m2WrPrg 0x8000#16 9#8) (m2 0#4) = .next (after (.m2WrPrg 0x8000#16 9#8) (m2 0#4)) ∧
    exec (.m3WrPrg 0x7FFF#16 9#8) (m3 0#8) = .next (after (.m3WrPrg 0x7FFF#16 9#8) (m3 0#8)) ∧
    (after (.m3WrPrg 0x7FFF#16 9#8) (m3 0#8)).block.fault ≠ none := ⟨rfl, rfl, rfl, by decide⟩

theorem witness_CharacterWriteChangesOneByte :
    Instr.m2WrChr 0x1FFF#16 9#8 ∈ [Instr.m2WrChr 0x1FFF#16 9#8, .m3WrChr 0x1FFF#16 9#8] ∧
    exec (.m2WrChr 0x1FFF#16 9#8) m2ram = .next (after (.m2WrChr 0x1FFF#16 9#8) m2ram) ∧
    pagerIndex m2ram.block .chrRam mapper2ChrPage 0x1FFF#16 = .ok 8191 ∧
    exec (.m3WrChr 0x1FFF#16 9#8) (m3 4#8) = .next (after (.m3WrChr 0x1FFF#16 9#8) (m3 4#8)) :=
  ⟨by decide, rfl, rfl, rfl⟩

/-- One that completes and one that faults. -/
theorem witness_PagerWriteChangesOneByte :
    exec (.pgWrite .chrRam (.first .kb8) 0x1FFF#16 7#8) m2ram =
      .next (after (.pgWrite .chrRam (.first .kb8) 0x1FFF#16 7#8) m2ram) ∧
    pagerIndex m2ram.block .chrRam (.first .kb8) 0x1FFF#16 = .ok 8191 ∧
    exec (.pgWrite .chrRam (.first .kb8) 0x2000#16 7#8) m2ram =
      .next (after (.pgWrite .chrRam (.first .kb8) 0x2000#16 7#8) m2ram) ∧
    (after (.pgWrite .chrRam (.first .kb8) 0x2000#16 7#8) m2ram).block.fault ≠ none := ⟨rfl, rfl, rfl, by decide⟩

theorem witness_BytesChangeOnlyWhereStored :
    exec (.m2WrChr 0x1FFF#16 9#8) m2ram = .next (after (.m2WrChr 0x1FFF#16 9#8) m2ram) ∧
    storedByte m2ram.block (.m2WrChr 0x1FFF#16 9#8) ≠ some (.chrRam, 8190) := ⟨rfl, by decide⟩

theorem witness_CompletedOperationsAreRepeatable :
    exec (.m2WrPrg 0xFFFF#16 0x1F#8) (m2 0#4) = .next (after (.m2WrPrg 0xFFFF#16 0x1F#8) (m2 0#4)) ∧
    (after (.m2WrPrg 0xFFFF#16 0x1F#8) (m2 0#4)).block.fault = none := ⟨rfl, rfl⟩

/-- A store through the stream. -/
theorem witness_StepKeepsBuffersCanonical_and_TheFixture :
    (issueNext m2ram (.mapperWord 0x030005AB#32)).block.wf = true ∧
    step (issueNext m2ram (.mapperWord 0x030005AB#32)) =
      .next (stepped (issueNext m2ram (.mapperWord 0x030005AB#32))) := ⟨by decide, rfl⟩

theorem witness_ConstructionTakesTheCartridge : (1 : Nat) ≠ 2 ∧ (1 : Nat) ≠ 3 := by decide

/-- A bank select of the last bank, under each variant. -/
theorem witness_SafeSessionNeverFaults :
    ((issueNext (m2 0#4) (.mapperWord 0x01800003#32)).block.safe = true ∧
      (issueNext (m2 0#4) (.mapperWord 0x01800003#32)).pending = .mapperWord 0x01800003#32 :: [] ∧
      decodeRequest (mapperVariant (m2 0#4).block.mapper) (.mapperWord 0x01800003#32) =
        .ok (.m2WrPrg 0x8000#16 0x03#8) ∧
      keepsToMap (m2 0#4).block (.m2WrPrg 0x8000#16 0x03#8) = true) ∧
    ((issueNext (m3 3#8) (.mapperWord 0x021FFF00#32)).block.safe = true ∧
      (issueNext (m3 3#8) (.mapperWord 0x021FFF00#32)).pending = .mapperWord 0x021FFF00#32 :: [] ∧
      decodeRequest (mapperVariant (m3 3#8).block.mapper) (.mapperWord 0x021FFF00#32) = .ok (.m3RdChr 0x1FFF#16) ∧
      keepsToMap (m3 3#8).block (.m3RdChr 0x1FFF#16) = true) :=
  ⟨⟨by decide, rfl, rfl, by decide⟩, ⟨by decide, rfl, rfl, by decide⟩⟩

end Sys2Proof.Tests
end

/-! Lemmas and proofs about 00_scope.md: the three outcomes of a transaction (R13) and the page sizes (R7). -/

namespace Sys2Proof.Machine

/-! What a decoded instruction is an operation of (42_mapper_capability.md R81). -/

theorem decodeMapper2Op_availableOn {op : BitVec 3} {a : Addr} {d : Byte} {i : Instr}
    (h : decodeMapper2Op op a d = .ok i) : i.availableOn .mapper2 = true := by
  unfold decodeMapper2Op at h
  split_ifs at h <;> cases h <;> rfl

theorem decodeMapper3Op_availableOn {op : BitVec 3} {a : Addr} {d : Byte} {i : Instr}
    (h : decodeMapper3Op op a d = .ok i) : i.availableOn .mapper3 = true := by
  unfold decodeMapper3Op at h
  split_ifs at h <;> cases h <;> rfl

theorem decodeMapperWord_availableOn {v : Variant} {w : BitVec 32} {i : Instr}
    (h : decodeMapperWord v w = .ok i) : i.availableOn v = true := by
  unfold decodeMapperWord at h
  split_ifs at h
  cases v with
  | mapper2 => exact decodeMapper2Op_availableOn h
  | mapper3 => exact decodeMapper3Op_availableOn h

theorem pagerInstr_availableOn (v : Variant) (op : BitVec 2) (b : BufferId) (k : BitVec 2) (s : PageSizeKb)
    (n : BitVec 32) (o : Addr) (d : Byte) : (pagerInstr op b k s n o d).availableOn v = true := by
  unfold pagerInstr
  split_ifs <;> rfl

theorem decodePagerWord_availableOn (v : Variant) {w : BitVec 64} {i : Instr} (h : decodePagerWord w = .ok i) :
    i.availableOn v = true := by
  unfold decodePagerWord at h
  split_ifs at h
  split at h
  · cases h
  · cases h
    exact pagerInstr_availableOn v ..

theorem commandInstr_availableOn (v : Variant) (c : PagerCommand) : (commandInstr c).availableOn v = true := by
  cases c <;> rfl

/-- A transaction decoded for a variant is an operation of a block of that variant. -/
theorem decodeRequest_availableOn {v : Variant} {r : Request} {i : Instr} (h : decodeRequest v r = .ok i) :
    i.availableOn v = true := by
  cases r with
  | mapperWord w => exact decodeMapperWord_availableOn h
  | pagerWord w => exact decodePagerWord_availableOn v h
  | pagerCommand c =>
    cases h
    exact commandInstr_availableOn v c

/-! The step at a live block, from what its next transaction decodes to. -/

section Step
variable {s : State} {r : Request} {rest : List Request}

theorem step_of_decode_error {e : DecodeReject} (hf : s.block.fault = none) (hp : s.pending = r :: rest)
    (hd : decodeRequest (mapperVariant s.block.mapper) r = .error e) : step s = .refused (.refusedEncoding e) := by
  simp [step, fetch, hf, hp, hd]

theorem step_of_decode_ok {i : Instr} (hf : s.block.fault = none) (hp : s.pending = r :: rest)
    (hd : decodeRequest (mapperVariant s.block.mapper) r = .ok i) : step s = exec i { s with pending := rest } := by
  have hfetch : fetch s = .next (i, { s with pending := rest }) := fetch_next_iff.mpr ⟨hf, r, rest, hp, hd, rfl⟩
  simp [step, hfetch]

/-- The step ends the decoded instruction's effect on the block, with the transaction taken. -/
theorem step_eq_conclude {i : Instr} (hf : s.block.fault = none) (hp : s.pending = r :: rest)
    (hd : decodeRequest (mapperVariant s.block.mapper) r = .ok i) :
    step s = conclude { s with pending := rest } i.operation (effectOf s.block i) := by
  rw [step_of_decode_ok hf hp hd]
  exact exec_live hf (decodeRequest_availableOn hd)

end Step

/-! A completed operation answers no fault record. -/

theorem performTarget_ok_response {b b' : Block} {g : Target} {resp : Response}
    (h : performTarget b g = .ok (b', resp)) (rec : FaultRecord) : resp ≠ .fault rec := by
  cases g with
  | pagerRead id p o | pagerWrite id p o v =>
    simp only [performTarget] at h
    split at h <;> cases h
    simp
  | regWrite m | discard | headerRead =>
    cases h
    simp

theorem driveTarget_ok_response {b b' : Block} {f : Option FaultInfo} {g : Target} {resp : Response}
    (h : driveTarget b f g = .ok (b', resp)) (rec : FaultRecord) : resp ≠ .fault rec :=
  performTarget_ok_response (driveTarget_ok h).2 rec

theorem performCount_ok_response {b b' : Block} {id : BufferId} {size : PageSizeKb} {resp : Response}
    (h : performCount b id size = .ok (b', resp)) (rec : FaultRecord) : resp ≠ .fault rec := by
  unfold performCount at h
  split at h <;> cases h
  simp

theorem effectOf_ok_response {b b' : Block} {i : Instr} {resp : Response}
    (h : effectOf b i = .ok (b', resp)) (rec : FaultRecord) : resp ≠ .fault rec := by
  cases i with
  | m2RdPrg a =>
    simp only [effectOf] at h
    split at h
    · exact driveTarget_ok_response h rec
    · cases h; simp
  | m3RdChr a =>
    simp only [effectOf] at h
    split at h
    · cases h; simp
    · exact driveTarget_ok_response h rec
  | m2WrPrg a d | m2RdChr a | m2WrChr a d | m2Mirror | m3RdPrg a | m3WrPrg a d | m3WrChr a d | m3Mirror =>
    simp only [effectOf] at h
    exact driveTarget_ok_response h rec
  | pgRead id p o | pgWrite id p o v =>
    simp only [effectOf] at h
    exact performTarget_ok_response h rec
  | pgCount id size => exact performCount_ok_response h rec

/-- Settles O8: the step refuses what does not decode, and otherwise ends the instruction's effect on the live block;
an effect that completes leaves `fault` alone and answers no record, one that faults is `takeFault`. -/
theorem everyOperationEndsInOneOfThreeWays : Obligations.EveryOperationEndsInOneOfThreeWays := by
  intro s r rest hf hp
  refine ⟨fun e hd => step_of_decode_error hf hp hd, fun i hd => ?_⟩
  rw [step_eq_conclude hf hp hd]
  cases heff : effectOf s.block i with
  | ok x =>
    obtain ⟨b, resp⟩ := x
    have hb : b.fault = none := (effectOf_ok_fault (decodeRequest_availableOn hd) heff).trans hf
    exact ⟨_, rfl, rfl, .inl ⟨hb, resp, rfl, effectOf_ok_response heff⟩⟩
  | error info => exact ⟨_, rfl, rfl, .inr ⟨⟨i.operation, info⟩, rfl, rfl, rfl⟩⟩

/-- Settles O32: each size is the equation `sizeBytes` has for it. -/
theorem pageSizesInBytes : Obligations.PageSizesInBytes :=
  ⟨sizeBytes_kb1, sizeBytes_kb4, sizeBytes_kb8, sizeBytes_kb16⟩

end Sys2Proof.Machine

/-! Lemmas and proofs about 10_state.md: what an operation can do to the block's buffers and header (R20 to R23), and
the state after reset (R33). -/

namespace Sys2Proof.Machine

/-! The buffers and the fixed part of a block after an update of one field. -/

@[simp] theorem buffer_withFault (b : Block) (f : Option FaultRecord) (id : BufferId) :
    Block.buffer { b with fault := f } id = b.buffer id := by cases id <;> rfl

@[simp] theorem buffer_withMapper (b : Block) (m : Mapper) (id : BufferId) :
    Block.buffer { b with mapper := m } id = b.buffer id := by cases id <;> rfl

@[simp] theorem fixture_withFault (b : Block) (f : Option FaultRecord) :
    Block.fixture { b with fault := f } = b.fixture := rfl

theorem fixture_withMapper {b : Block} {m : Mapper} (h : mapperVariant m = mapperVariant b.mapper) :
    Block.fixture { b with mapper := m } = b.fixture := by
  simp [Block.fixture, h]

theorem fixture_setBuffer {b : Block} {id : BufferId} {x : Buffer} (h : x.length = (b.buffer id).length) :
    (b.setBuffer id x).fixture = b.fixture := by
  cases id <;> simp_all [Block.fixture, Block.setBuffer, Block.buffer]

/-! What an operation that ends in a next state did to the block. -/

/-- The three shapes of the next block: at most the fault field differs, or the register of the block's own variant,
or the one byte that `storedByte` names. -/
theorem exec_next_block_cases {i : Instr} {s t : State} (h : exec i s = .next t) :
    (∃ f, t.block = { s.block with fault := f }) ∨
      (i.operation = .wrPrg ∧
        ∃ m, mapperVariant m = mapperVariant s.block.mapper ∧ t.block = { s.block with mapper := m }) ∨
      (∃ id j v, storedByte s.block i = some (id, j) ∧ j < (s.block.buffer id).length ∧
        t.block = s.block.setBuffer id ((s.block.buffer id).write j v)) := by
  obtain ⟨-, hv, ⟨b, resp, heff, rfl⟩ | ⟨e, -, rfl⟩⟩ := exec_next_cases h
  · exact (effectOf_ok_cases hv heff).imp_left fun hb => ⟨s.block.fault, hb⟩
  · exact .inl ⟨_, rfl⟩

/-- Each buffer is as it was, or has the one byte replaced that `storedByte` names in it. -/
theorem exec_next_buffer_cases {i : Instr} {s t : State} (h : exec i s = .next t) (id : BufferId) :
    t.block.buffer id = s.block.buffer id ∨
      ∃ j v, storedByte s.block i = some (id, j) ∧ j < (s.block.buffer id).length ∧
        t.block.buffer id = (s.block.buffer id).write j v := by
  obtain ⟨f, hb⟩ | ⟨-, m, -, hb⟩ | ⟨id', j, v, hst, hj, hb⟩ := exec_next_block_cases h
  · exact .inl (by rw [hb, buffer_withFault])
  · exact .inl (by rw [hb, buffer_withMapper])
  · by_cases hid : id = id'
    · subst hid
      exact .inr ⟨j, v, hst, hj, by rw [hb, setBuffer_buffer_same]⟩
    · exact .inl (by rw [hb, setBuffer_buffer_other _ hid])

theorem exec_keeps_blockWf {i : Instr} {s t : State} (h : exec i s = .next t) (hwf : s.block.wf = true) :
    t.block.wf = true := by
  refine (blockWf_iff _).mpr fun id => ?_
  have hid := (blockWf_iff _).mp hwf id
  obtain hb | ⟨j, v, -, hj, hb⟩ := exec_next_buffer_cases h id
  · rwa [hb]
  · rw [hb]
    exact bufferWf_write v hj hid

theorem exec_keeps_fixture {i : Instr} {s t : State} (h : exec i s = .next t) :
    t.block.fixture = s.block.fixture := by
  obtain ⟨f, hb⟩ | ⟨-, m, hm, hb⟩ | ⟨id, j, v, -, -, hb⟩ := exec_next_block_cases h
  · rw [hb, fixture_withFault]
  · rw [hb, fixture_withMapper hm]
  · rw [hb, fixture_setBuffer (bufferWrite_length _ j v)]

/-- A mapper operation that stores a byte is M2.WR_CHR of a cartridge without CHR ROM, and the byte is CHR RAM's. -/
theorem storedByte_of_mapperOperation {b : Block} {i : Instr} {id : BufferId} {j : Nat}
    (hi : i.operation ∈ [.rdPrg, .wrPrg, .rdChr, .wrChr, .mirror]) (h : storedByte b i = some (id, j)) :
    id = .chrRam ∧ b.chrRomPages = 0 ∧ ∃ a d, i = .m2WrChr a d := by
  cases i with
  | m2WrChr a d =>
    simp only [storedByte] at h
    split at h
    · rename_i hpages
      obtain ⟨k, -, hk⟩ := Option.map_eq_some_iff.mp h
      cases hk
      exact ⟨rfl, hpages, a, d, rfl⟩
    · cases h
  | pgWrite id' p o v => simp [Instr.operation] at hi
  | m2RdPrg a | m2WrPrg a d | m2RdChr a | m2Mirror | m3RdPrg a | m3WrPrg a d | m3RdChr a | m3WrChr a d | m3Mirror
  | pgRead id' p o | pgCount id' size => cases h

/-- A buffer that a mapper operation changed is CHR RAM, changed by M2.WR_CHR of a cartridge without CHR ROM. -/
theorem mapperOperation_changed_buffer {i : Instr} {s t : State} {id : BufferId}
    (hi : i.operation ∈ [.rdPrg, .wrPrg, .rdChr, .wrChr, .mirror]) (h : exec i s = .next t)
    (hne : t.block.buffer id ≠ s.block.buffer id) :
    id = .chrRam ∧ s.block.chrRomPages = 0 ∧ ∃ a d, i = .m2WrChr a d := by
  obtain hb | ⟨j, v, hst, -, -⟩ := exec_next_buffer_cases h id
  · exact absurd hb hne
  · exact storedByte_of_mapperOperation hi hst

/-- Settles O46: a step runs one instruction, and a buffer it wrote took one byte inside its length, a write that
keeps the cell list canonical. -/
theorem stepKeepsBuffersCanonical : Obligations.StepKeepsBuffersCanonical := by
  intro s t hwf h
  obtain ⟨-, r, rest, i, -, -, hi⟩ := step_next_cases h
  exact exec_keeps_blockWf hi hwf

/-- Settles O31: a ROM that changed would be CHR RAM, the only buffer a mapper operation stores to. -/
theorem mapperOperationsWriteNoRom : Obligations.MapperOperationsWriteNoRom := by
  intro i s t hi h
  refine ⟨?_, ?_, fun hne => (mapperOperation_changed_buffer (id := .chrRam) hi h hne).2⟩
  · by_contra hne
    cases (mapperOperation_changed_buffer (id := .prgRom) hi h hne).1
  · by_contra hne
    cases (mapperOperation_changed_buffer (id := .chrRom) hi h hne).1

/-- Settles O44: a buffer that changed is the old one with the byte at `storedByte`'s index replaced. -/
theorem bytesChangeOnlyWhereStored : Obligations.BytesChangeOnlyWhereStored := by
  intro i s t h id
  obtain hb | ⟨k, v, hst, -, hb⟩ := exec_next_buffer_cases h id
  · exact ⟨by rw [hb], fun j _ => by rw [hb]⟩
  · refine ⟨by rw [hb, bufferWrite_length], fun j hj => ?_⟩
    have hjk : j ≠ k := fun e => hj (e ▸ hst)
    rw [hb, buffer_read_write_other hjk]

/-- Settles O47: no instruction replaces a header field or a length, and a bank select keeps the variant. -/
theorem stepKeepsTheFixture : Obligations.StepKeepsTheFixture := by
  intro s t h
  obtain ⟨-, r, rest, i, -, -, hi⟩ := step_next_cases h
  exact exec_keeps_fixture (s := { s with pending := rest }) hi

/-- Settles O49: `construct` at mapper id 2 gives the reset block, whose buffers list no cell. -/
theorem resetIsAConstructedBlock : Obligations.ResetIsAConstructedBlock :=
  ⟨rfl, rfl, rfl, reset_mapper, reset_fault, rfl⟩

end Sys2Proof.Machine

/-! Lemmas and proofs about 20_memory.md: reads change nothing and completed operations are repeatable (R38), CHR RAM
gives back what it was given (R47), and the two bus spaces are independent (R49). -/

namespace Sys2Proof.Machine

/-! What a completed operation is. -/

/-- An operation that ends without a fault record is its effect, completed. -/
theorem exec_completed {i : Instr} {s t : State} (h : exec i s = .next t) (ht : t.block.fault = none) :
    ∃ b resp, effectOf s.block i = .ok (b, resp) ∧ t = { s with block := b, response := some resp } := by
  obtain ⟨-, -, hok | ⟨e, -, rfl⟩⟩ := exec_next_cases h
  · exact hok
  · cases ht

theorem exec_next_pending {i : Instr} {s t : State} (h : exec i s = .next t) : t.pending = s.pending := by
  obtain ⟨-, -, ⟨b, resp, -, rfl⟩ | ⟨e, -, rfl⟩⟩ := exec_next_cases h <;> rfl

theorem exec_keeps_variant {i : Instr} {s t : State} (h : exec i s = .next t) :
    mapperVariant t.block.mapper = mapperVariant s.block.mapper :=
  congrArg Fixture.variant (exec_keeps_fixture h)

/-- Only a bank-select write replaces the register. -/
theorem exec_keeps_mapper {i : Instr} {s t : State} (hi : i.operation ≠ .wrPrg) (h : exec i s = .next t) :
    t.block.mapper = s.block.mapper := by
  obtain ⟨f, hb⟩ | ⟨hop, -⟩ | ⟨id, j, v, -, -, hb⟩ := exec_next_block_cases h
  · rw [hb]
  · exact absurd hop hi
  · rw [hb, setBuffer_mapper]

/-! Reads and queries. -/

theorem storedByte_of_readOrQuery {i : Instr}
    (hi : i.operation ∈ [.rdPrg, .rdChr, .mirror, .pgRead, .pgCount]) (b : Block) : storedByte b i = none := by
  cases i with
  | m2WrChr a d | pgWrite id p o v => simp [Instr.operation] at hi
  | m2RdPrg a | m2WrPrg a d | m2RdChr a | m2Mirror | m3RdPrg a | m3WrPrg a d | m3RdChr a | m3WrChr a d | m3Mirror
  | pgRead id p o | pgCount id size => rfl

/-- A read or a query leaves the block as it is but for the fault field. -/
theorem readOrQuery_keeps_block {i : Instr} {s t : State}
    (hi : i.operation ∈ [.rdPrg, .rdChr, .mirror, .pgRead, .pgCount]) (h : exec i s = .next t) :
    ∃ f, t.block = { s.block with fault := f } := by
  obtain hb | ⟨hop, -⟩ | ⟨id, j, v, hst, -⟩ := exec_next_block_cases h
  · exact hb
  · simp [hop] at hi
  · rw [storedByte_of_readOrQuery hi] at hst
    cases hst

/-- Settles O40: the next block differs at most in the fault field, which was empty before. -/
theorem readsAndQueriesChangeNothing : Obligations.ReadsAndQueriesChangeNothing := by
  intro i s t hi h
  obtain ⟨f, hb⟩ := readOrQuery_keeps_block hi h
  refine ⟨exec_next_pending h, ?_, fun id j => by rw [hb, buffer_withFault]⟩
  cases f with
  | none => exact .inl (by rw [hb, ← (exec_next_live h).1])
  | some rec => exact .inr ⟨rec, hb⟩

/-! Repeating a completed operation. -/

/-- A target carried out again on the block it left gives the same block and the same answer: a store finds its byte
at the same index, the length being kept, and writes it the value it has. -/
theorem performTarget_repeat {b b' : Block} {g : Target} {r : Response} (h : performTarget b g = .ok (b', r)) :
    performTarget b' g = .ok (b', r) := by
  cases g with
  | pagerWrite id p o v =>
    obtain ⟨j, hj, rfl⟩ := performTarget_write h
    have hj' : pagerIndex (b.setBuffer id ((b.buffer id).write j v)) id p o = .ok j := by
      rw [← hj]
      exact pagerIndex_congr (by simp) p o
    have hr : r = .nothing := by
      simp only [performTarget, pagerWrite, hj] at h
      cases h
      rfl
    simp [performTarget, pagerWrite, hj', hr]
  | regWrite m => cases h; rfl
  | pagerRead id p o | discard | headerRead =>
    obtain rfl := performTarget_keeps h (by simp) (by simp)
    exact h

theorem driveTarget_repeat {b b' : Block} {f : Option FaultInfo} {g : Target} {r : Response}
    (h : driveTarget b f g = .ok (b', r)) : driveTarget b' f g = .ok (b', r) := by
  obtain ⟨rfl, h⟩ := driveTarget_ok h
  exact performTarget_repeat h

/-- A completed effect repeats: the block it leaves asks for the same target, and a target repeats. -/
theorem effectOf_repeat {b b' : Block} {i : Instr} {r : Response}
    (hv : i.availableOn (mapperVariant b.mapper) = true) (h : effectOf b i = .ok (b', r)) :
    effectOf b' i = .ok (b', r) := by
  obtain rfl | ⟨hop, m, -, rfl⟩ | ⟨id, j, v, hst, -, rfl⟩ := effectOf_ok_cases hv h
  · exact h
  · cases i <;> cases hop <;> exact driveTarget_repeat h
  · cases i with
    | m2WrChr a d =>
      simp only [effectOf, setBuffer_chrRomPages] at h ⊢
      exact driveTarget_repeat h
    | pgWrite id' p o v' => exact performTarget_repeat (g := .pagerWrite id' p o v') h
    | m2RdPrg a | m2WrPrg a d | m2RdChr a | m2Mirror | m3RdPrg a | m3WrPrg a d | m3RdChr a | m3WrChr a d | m3Mirror
    | pgRead id' p o | pgCount id' size => cases hst

/-- Settles O45: the completed state is live and of the same variant, so the operation runs there again, and its
effect repeats. -/
theorem completedOperationsAreRepeatable : Obligations.CompletedOperationsAreRepeatable := by
  intro i s t h ht
  have hv := (exec_next_live h).2
  have hlive : exec i t = conclude t i.operation (effectOf t.block i) :=
    exec_live ht (by rwa [exec_keeps_variant h])
  obtain ⟨b, resp, heff, rfl⟩ := exec_completed h ht
  rw [hlive, effectOf_repeat hv heff, conclude_ok]

/-! Sessions: what construction fixed, and a byte that nothing stores to. -/

theorem buffer_length_of_fixture {b b' : Block} (h : b'.fixture = b.fixture) (id : BufferId) :
    (b'.buffer id).length = (b.buffer id).length := by
  cases id with
  | prgRom => exact congrArg Fixture.prgRomLength h
  | chrRom => exact congrArg Fixture.chrRomLength h
  | chrRam => exact congrArg Fixture.chrRamLength h

theorem pagerIndex_of_fixture {b b' : Block} (h : b'.fixture = b.fixture) (id : BufferId) (p : Page) (o : Addr) :
    pagerIndex b' id p o = pagerIndex b id p o :=
  pagerIndex_congr (buffer_length_of_fixture h id) p o

/-- Where an instruction stores depends only on what construction fixed. -/
theorem storedByte_of_fixture {b b' : Block} (h : b'.fixture = b.fixture) (i : Instr) :
    storedByte b' i = storedByte b i := by
  have hpages : b'.chrRomPages = b.chrRomPages := congrArg Fixture.chrRomPages h
  cases i with
  | m2WrChr a d | pgWrite id p o v => simp only [storedByte, hpages, pagerIndex_of_fixture h]
  | m2RdPrg a | m2WrPrg a d | m2RdChr a | m2Mirror | m3RdPrg a | m3WrPrg a d | m3RdChr a | m3WrChr a d | m3Mirror
  | pgRead id p o | pgCount id size => rfl

theorem runInstrs_cons_next_iff {i : Instr} {rest : List Instr} {s u : State} :
    runInstrs (i :: rest) s = .next u ↔ ∃ t, exec i s = .next t ∧ runInstrs rest t = .next u := by
  simp only [runInstrs]
  cases exec i s <;> simp

theorem runInstrs_keeps_fixture {is : List Instr} {s u : State} (h : runInstrs is s = .next u) :
    u.block.fixture = s.block.fixture := by
  induction is generalizing s with
  | nil => cases h; rfl
  | cons i rest ih =>
    obtain ⟨t, hi, hrest⟩ := runInstrs_cons_next_iff.mp h
    exact (ih hrest).trans (exec_keeps_fixture hi)

/-- A byte that no instruction of a session stores to reads as before the session. -/
theorem runInstrs_keeps_byte {is : List Instr} {s u : State} {id : BufferId} {j : Nat}
    (hst : ∀ i ∈ is, storedByte s.block i ≠ some (id, j)) (h : runInstrs is s = .next u) :
    (u.block.buffer id).read j = (s.block.buffer id).read j := by
  induction is generalizing s with
  | nil => cases h; rfl
  | cons i rest ih =>
    obtain ⟨t, hi, hrest⟩ := runInstrs_cons_next_iff.mp h
    have hst' : ∀ i' ∈ rest, storedByte t.block i' ≠ some (id, j) := fun i' hi' => by
      rw [storedByte_of_fixture (exec_keeps_fixture hi)]
      exact hst i' (List.mem_cons_of_mem _ hi')
    calc (u.block.buffer id).read j
      _ = (t.block.buffer id).read j := ih hst' hrest
      _ = (s.block.buffer id).read j := (bytesChangeOnlyWhereStored i s t hi id).2 j (hst i (by simp))

/-! Reads that deliver a byte. -/

theorem driveTarget_read_ok {b : Block} {id : BufferId} {p : Page} {o : Addr} {k : Nat}
    (hk : pagerIndex b id p o = .ok k) :
    driveTarget b none (.pagerRead id p o) = .ok (b, .rdata ((b.buffer id).read k)) := by
  simp [driveTarget, performTarget, pagerRead, hk]

/-- M2.RD_CHR of a cartridge without CHR ROM delivers the byte of CHR RAM its address resolves to
(43_mapper2_uxrom.md R94). -/
theorem exec_m2RdChr_ram {s : State} {a : Addr} {k : Nat} (hf : s.block.fault = none)
    (hv : mapperVariant s.block.mapper = .mapper2) (hpages : s.block.chrRomPages = 0) (ha : a.toNat < 0x2000)
    (hk : pagerIndex s.block .chrRam mapper2ChrPage a = .ok k) :
    exec (.m2RdChr a) s = .next (Claims.delivers s (s.block.chrRam.read k)) := by
  rw [exec_live hf (by rw [hv]; rfl)]
  simp only [effectOf, mapper2ChrBuffer, hpages, if_true, chrDomainFault_inside .rdChr ha, driveTarget_read_ok hk,
    conclude_ok]
  rfl

/-- M3.RD_CHR delivers the byte of CHR ROM that its address resolves to in the selected bank
(44_mapper3_cnrom.md R102). -/
theorem exec_m3RdChr_bank {s : State} {a : Addr} {chr0 : BitVec 8} {k : Nat} (hf : s.block.fault = none)
    (hm : s.block.mapper = .mapper3 chr0) (ha : a.toNat < 0x2000)
    (hk : pagerIndex s.block .chrRom (mapper3ChrPage chr0) a = .ok k) :
    exec (.m3RdChr a) s = .next (Claims.delivers s (s.block.chrRom.read k)) := by
  rw [exec_live hf (by rw [hm]; rfl)]
  simp only [effectOf, hm, chrDomainFault_inside .rdChr ha, driveTarget_read_ok hk, conclude_ok]
  rfl

/-- The first 8 KB bank puts an address at its own index (43_mapper2_uxrom.md R91). -/
theorem pagerIndex_mapper2ChrPage_ok {b : Block} {id : BufferId} {a : Addr} {k : Nat}
    (h : pagerIndex b id mapper2ChrPage a = .ok k) : k = a.toNat := by
  obtain ⟨-, n, hn, -, -, rfl⟩ := pagerIndex_ok_iff.mp h
  cases hn
  simp

/-- A completed M2.WR_CHR of a cartridge without CHR ROM was in the domain and left its byte in CHR RAM at the
address (43_mapper2_uxrom.md R95). -/
theorem exec_m2WrChr_completed {s t : State} {a : Addr} {d : Byte} (hpages : s.block.chrRomPages = 0)
    (h : exec (.m2WrChr a d) s = .next t) (ht : t.block.fault = none) :
    a.toNat < 0x2000 ∧ pagerIndex s.block .chrRam mapper2ChrPage a = .ok a.toNat ∧
      t.block.chrRam = s.block.chrRam.write a.toNat d := by
  obtain ⟨b, resp, heff, rfl⟩ := exec_completed h ht
  simp only [effectOf, hpages, if_true] at heff
  obtain ⟨hdom, hperf⟩ := driveTarget_ok heff
  obtain ⟨k, hk, rfl⟩ := performTarget_write hperf
  obtain rfl := pagerIndex_mapper2ChrPage_ok hk
  refine ⟨?_, hk, rfl⟩
  by_contra hge
  rw [chrDomainFault_above .wrChr (Nat.not_lt.mp hge)] at hdom
  cases hdom

/-- Settles O21: the write leaves d at index A, the session keeps that byte and what construction fixed, so the read
resolves to the same index. -/
theorem characterRamRoundTrip : Obligations.CharacterRamRoundTrip := by
  intro s t u prg0 a d between hm hpages hwrite ht hst hrun hu
  obtain ⟨ha, hidx, hram⟩ := exec_m2WrChr_completed hpages hwrite ht
  have hfix : t.block.fixture = s.block.fixture := exec_keeps_fixture hwrite
  have hfixu : u.block.fixture = s.block.fixture := (runInstrs_keeps_fixture hrun).trans hfix
  have hbyte : u.block.chrRam.read a.toNat = d := by
    have hkept := runInstrs_keeps_byte (fun i hi => by rw [storedByte_of_fixture hfix]; exact hst i hi) hrun
    calc u.block.chrRam.read a.toNat
      _ = t.block.chrRam.read a.toNat := hkept
      _ = d := by rw [hram, buffer_read_write_same]
  have hvu : mapperVariant u.block.mapper = .mapper2 :=
    (congrArg Fixture.variant hfixu).trans (congrArg mapperVariant hm)
  have hpagesu : u.block.chrRomPages = 0 := (congrArg Fixture.chrRomPages hfixu).trans hpages
  have hidxu := (pagerIndex_of_fixture hfixu .chrRam mapper2ChrPage a).trans hidx
  rw [exec_m2RdChr_ram hu hvu hpagesu ha hidxu, hbyte]

/-! What an instruction answers, apart from the block it leaves. -/

/-- The answer an instruction's effect gives: its response, or its fault. -/
def answerOf (b : Block) (i : Instr) : Except FaultInfo Response := (effectOf b i).map Prod.snd

/-- Two ends with the same response or the same fault respond alike. -/
theorem conclude_response_congr {s t u : State} {op : Operation} {x y : Except FaultInfo (Block × Response)}
    (hxy : y.map Prod.snd = x.map Prod.snd) (h : conclude s op x = .next u) :
    ∃ u', conclude t op y = .next u' ∧ u'.response = u.response := by
  obtain ⟨b, resp, rfl, rfl⟩ | ⟨e, rfl, rfl⟩ := conclude_next_iff.mp h
  · cases y with
    | error e => cases hxy
    | ok y =>
      obtain ⟨b', resp'⟩ := y
      cases hxy
      exact ⟨_, rfl, rfl⟩
  · cases y with
    | error e' => cases hxy; exact ⟨_, rfl, rfl⟩
    | ok y => cases hxy

/-- Two live states of one variant in which an instruction's effect gives the same answer respond alike. -/
theorem exec_response_congr {j : Instr} {s t u : State} (h : exec j s = .next u) (ht : t.block.fault = none)
    (hv : mapperVariant t.block.mapper = mapperVariant s.block.mapper)
    (hans : answerOf t.block j = answerOf s.block j) :
    ∃ u', exec j t = .next u' ∧ u'.response = u.response := by
  obtain ⟨hs, hav⟩ := exec_next_live h
  rw [exec_live hs hav] at h
  rw [exec_live ht (by rwa [hv])]
  exact conclude_response_congr hans h

/-- A read target's answer depends only on the buffer it reads. -/
theorem driveTarget_read_answer_congr {b b' : Block} {id : BufferId} (h : b'.buffer id = b.buffer id)
    (f : Option FaultInfo) (p : Page) (o : Addr) :
    (driveTarget b' f (.pagerRead id p o)).map Prod.snd = (driveTarget b f (.pagerRead id p o)).map Prod.snd := by
  cases f with
  | some e => rfl
  | none =>
    simp only [driveTarget, performTarget, pagerRead, pagerIndex_congr (congrArg Buffer.length h) p o, h]
    cases pagerIndex b id p o <;> rfl

/-- RD_PRG answers from the register and PRG ROM (43_mapper2_uxrom.md R92, 44_mapper3_cnrom.md R100). -/
theorem answerOf_rdPrg_congr {b b' : Block} {j : Instr} (hj : j.operation = .rdPrg) (hm : b'.mapper = b.mapper)
    (hp : b'.prgRom = b.prgRom) : answerOf b' j = answerOf b j := by
  have hbuf : b'.buffer .prgRom = b.buffer .prgRom := hp
  cases j <;> cases hj
  case m2RdPrg a =>
    simp only [answerOf, effectOf, hm]
    cases b.mapper with
    | mapper2 prg0 => exact driveTarget_read_answer_congr hbuf ..
    | mapper3 chr0 => rfl
  case m3RdPrg a => exact driveTarget_read_answer_congr hbuf ..

/-- M2.RD_CHR answers without the register (43_mapper2_uxrom.md R94). -/
theorem answerOf_m2RdChr_withMapper (b : Block) (m : Mapper) (a : Addr) :
    answerOf { b with mapper := m } (.m2RdChr a) = answerOf b (.m2RdChr a) :=
  driveTarget_read_answer_congr (buffer_withMapper b m _) ..

/-- In the high window Mapper2 reads the last bank, whatever the register (43_mapper2_uxrom.md R92). -/
theorem mapper2PrgPage_high (prg0 : BitVec 4) {a : Addr} (ha : 0xC000 ≤ a.toNat) :
    mapper2PrgPage prg0 a = .last .kb16 := by
  have hwin : ¬ inLowWindow a = true := fun hlow => by
    have := (inLowWindow_iff a).mp hlow
    omega
  simp [mapper2PrgPage, hwin]

theorem answerOf_m2RdPrg_high_withMapper {b : Block} {prg0 prg0' : BitVec 4} {a : Addr}
    (hm : b.mapper = .mapper2 prg0) (ha : 0xC000 ≤ a.toNat) :
    answerOf { b with mapper := .mapper2 prg0' } (.m2RdPrg a) = answerOf b (.m2RdPrg a) := by
  simp only [answerOf, effectOf, hm, mapper2PrgPage_high _ ha]
  exact driveTarget_read_answer_congr (buffer_withMapper b _ _) ..

/-! What the two spaces do to each other. -/

/-- A completed character-space operation leaves the register and PRG ROM, all that RD_PRG answers from. -/
theorem characterOperation_keeps_rdPrg_answer {i j : Instr} {s t : State} (hi : i.operation ∈ [.rdChr, .wrChr])
    (hj : j.operation = .rdPrg) (h : exec i s = .next t) : answerOf t.block j = answerOf s.block j := by
  have hmapper : t.block.mapper = s.block.mapper :=
    exec_keeps_mapper (fun hop => by simp [hop] at hi) h
  have hmem : i.operation ∈ [.rdPrg, .wrPrg, .rdChr, .wrChr, .mirror] := by
    simp only [List.mem_cons] at hi ⊢
    tauto
  exact answerOf_rdPrg_congr hj hmapper (mapperOperationsWriteNoRom i s t hmem h).1

theorem exec_m2WrPrg_completed {s t : State} {a : Addr} {d : Byte} (h : exec (.m2WrPrg a d) s = .next t)
    (ht : t.block.fault = none) : t.block = { s.block with mapper := .mapper2 (prgBankOfData d) } := by
  obtain ⟨b, resp, heff, rfl⟩ := exec_completed h ht
  cases (driveTarget_ok heff).2
  rfl

theorem exec_m3WrPrg_completed {s t : State} {a : Addr} {d : Byte} (h : exec (.m3WrPrg a d) s = .next t)
    (ht : t.block.fault = none) : t.block = { s.block with mapper := .mapper3 d } := by
  obtain ⟨b, resp, heff, rfl⟩ := exec_completed h ht
  cases (driveTarget_ok heff).2
  rfl

theorem mapper2_of_exec_m2WrPrg {s t : State} {a : Addr} {d : Byte} (h : exec (.m2WrPrg a d) s = .next t) :
    ∃ prg0, s.block.mapper = .mapper2 prg0 := by
  have hv := (exec_next_live h).2
  cases hm : s.block.mapper with
  | mapper2 prg0 => exact ⟨prg0, rfl⟩
  | mapper3 chr0 => simp [Instr.availableOn, mapperVariant, hm] at hv

/-- The index of an address in a CHR ROM bank that exists (44_mapper3_cnrom.md R102). -/
theorem pagerIndex_mapper3ChrPage {b : Block} {chr0 : BitVec 8} {a : Addr} (ha : a.toNat < 0x2000)
    (hlen : b.chrRom.length % 8192 = 0) (hbank : chr0.toNat < b.chrRom.length / 8192) :
    pagerIndex b .chrRom (mapper3ChrPage chr0) a = .ok (chr0.toNat * 8192 + a.toNat) :=
  pagerIndex_inRange hlen (canonicalBank_number _ _ _) hbank ha

/-- Settles O30: a character-space operation keeps what RD_PRG answers from; a Mapper2 bank select replaces the
register, from which neither RD_CHR nor a high-window RD_PRG answers; a Mapper3 bank select leaves the bank in the
register that RD_CHR reads. -/
theorem programAndCharacterSpacesAreIndependent : Obligations.ProgramAndCharacterSpacesAreIndependent := by
  refine ⟨?_, ?_, ?_⟩
  · intro i j s t u hi hj h ht hread
    exact exec_response_congr hread ht (exec_keeps_variant h) (characterOperation_keeps_rdPrg_answer hi hj h)
  · intro a a' d j s t u hj h ht hread
    refine exec_response_congr hread ht (exec_keeps_variant h) ?_
    rw [exec_m2WrPrg_completed h ht]
    obtain ⟨prg0, hm⟩ := mapper2_of_exec_m2WrPrg h
    obtain rfl | ⟨rfl, ha'⟩ := hj
    · exact answerOf_m2RdChr_withMapper ..
    · exact answerOf_m2RdPrg_high_withMapper hm ha'
  · intro a a' d s t h ht ha' hlen hbank
    have hb := exec_m3WrPrg_completed h ht
    have hrom : t.block.chrRom = s.block.chrRom := by rw [hb]
    rw [← hrom] at hlen hbank ⊢
    exact exec_m3RdChr_bank ht (by rw [hb]) ha' (pagerIndex_mapper3ChrPage ha' hlen hbank)

end Sys2Proof.Machine

/-! Lemmas and proofs about 30_encoding.md: the fields a code ignores (R56, R58), the reserved encodings (R62), the
examples of the assembler section (R65, R66), and the step that runs what it decodes (R51). -/

namespace Sys2Proof.Machine

/-! Fields that lie inside a run of bits two words agree on. -/

/-- A field whose bits all lie in a wider field is a field of that wider field. -/
theorem extractLsb'_congr_sub {n start len start' len' : Nat} {w w' : BitVec n} (hlo : start ≤ start')
    (hhi : start' + len' ≤ start + len) (h : w.extractLsb' start len = w'.extractLsb' start len) :
    w.extractLsb' start' len' = w'.extractLsb' start' len' := by
  ext i hi
  have hbit := congrArg (·.getLsbD (start' - start + i)) h
  have hin : start' - start + i < len := by omega
  have hidx : start + (start' - start + i) = start' + i := by omega
  simpa [hin, hidx] using hbit

/-! What a mapper-port word decodes to, apart from the fields its code ignores. -/

theorem decodeMapperOp_mirror_congr (v : Variant) (a a' : Addr) (d d' : Byte) :
    decodeMapperOp v 0b100#3 a d = decodeMapperOp v 0b100#3 a' d' := by cases v <;> rfl

theorem decodeMapperOp_read_congr (v : Variant) {op : BitVec 3} (hop : op = 0b000#3 ∨ op = 0b010#3) (a : Addr)
    (d d' : Byte) : decodeMapperOp v op a d = decodeMapperOp v op a d' := by
  obtain rfl | rfl := hop <;> cases v <;> rfl

/-- Words with one Z decode alike when their operations do. -/
theorem decodeMapperWord_congr {v : Variant} {w w' : BitVec 32} (hz : mapperZ w = mapperZ w')
    (hop : decodeMapperOp v (mapperOp w) (mapperA w) (mapperD w) =
      decodeMapperOp v (mapperOp w') (mapperA w') (mapperD w')) : decodeMapperWord v w = decodeMapperWord v w' := by
  simp only [decodeMapperWord, hz, hop]

theorem decodeMapperWord_mirror_congr {v : Variant} {w w' : BitVec 32} (hz : mapperZ w = mapperZ w')
    (hop : mapperOp w = mapperOp w') (hmirror : mapperOp w = 0b100#3) :
    decodeMapperWord v w = decodeMapperWord v w' := by
  refine decodeMapperWord_congr hz ?_
  rw [← hop, hmirror]
  exact decodeMapperOp_mirror_congr ..

theorem decodeMapperWord_read_congr {v : Variant} {w w' : BitVec 32} (hz : mapperZ w = mapperZ w')
    (hop : mapperOp w = mapperOp w') (hread : mapperOp w = 0b000#3 ∨ mapperOp w = 0b010#3)
    (ha : mapperA w = mapperA w') : decodeMapperWord v w = decodeMapperWord v w' := by
  refine decodeMapperWord_congr hz ?_
  rw [← hop, ← ha]
  exact decodeMapperOp_read_congr v hread ..

/-! What a Pager-port word decodes to, apart from the fields its code ignores. -/

theorem pagerInstr_count_congr (b : BufferId) (s : PageSizeKb) (k k' : BitVec 2) (n n' : BitVec 32) (o o' : Addr)
    (d d' : Byte) : pagerInstr 0b10#2 b k s n o d = pagerInstr 0b10#2 b k' s n' o' d' := rfl

theorem pagerInstr_read_congr (b : BufferId) (k : BitVec 2) (s : PageSizeKb) (n : BitVec 32) (o : Addr)
    (d d' : Byte) : pagerInstr 0b00#2 b k s n o d = pagerInstr 0b00#2 b k s n o d' := rfl

/-- First and Last have no N. -/
theorem decodePage_firstLast_congr {k : BitVec 2} (hk : k = 0b00#2 ∨ k = 0b01#2) (s : PageSizeKb)
    (n n' : BitVec 32) : decodePage k s n = decodePage k s n' := by
  obtain rfl | rfl := hk <;> rfl

theorem pagerInstr_firstLast_congr {k : BitVec 2} (hk : k = 0b00#2 ∨ k = 0b01#2) (op : BitVec 2) (b : BufferId)
    (s : PageSizeKb) (n n' : BitVec 32) (o : Addr) (d : Byte) :
    pagerInstr op b k s n o d = pagerInstr op b k s n' o d := by
  simp only [pagerInstr, decodePage_firstLast_congr hk s n n']

/-- Words with one OP and one B decode alike when their commands on every buffer do. -/
theorem decodePagerWord_congr {w w' : BitVec 64} (hop : pagerOp w = pagerOp w') (hb : pagerB w = pagerB w')
    (hinstr : ∀ b, pagerInstr (pagerOp w) b (pagerK w) (decodeSize (pagerS w)) (pagerN w) (pagerO w) (pagerD w) =
      pagerInstr (pagerOp w') b (pagerK w') (decodeSize (pagerS w')) (pagerN w') (pagerO w') (pagerD w')) :
    decodePagerWord w = decodePagerWord w' := by
  simp only [decodePagerWord, hinstr, hb]
  rw [hop]

section PagerFields
variable {w w' : BitVec 64} (hop : pagerOp w = pagerOp w') (hs : pagerS w = pagerS w') (hb : pagerB w = pagerB w')
include hop hs hb

theorem decodePagerWord_count_congr (hcount : pagerOp w = 0b10#2) : decodePagerWord w = decodePagerWord w' := by
  refine decodePagerWord_congr hop hb fun b => ?_
  rw [← hop, ← hs, hcount]
  exact pagerInstr_count_congr ..

theorem decodePagerWord_read_congr (hread : pagerOp w = 0b00#2) (hk : pagerK w = pagerK w')
    (hn : pagerN w = pagerN w') (ho : pagerO w = pagerO w') : decodePagerWord w = decodePagerWord w' := by
  refine decodePagerWord_congr hop hb fun b => ?_
  rw [← hop, ← hs, ← hk, ← hn, ← ho, hread]
  exact pagerInstr_read_congr ..

theorem decodePagerWord_readFirstLast_congr (hread : pagerOp w = 0b00#2)
    (hsel : pagerK w = 0b00#2 ∨ pagerK w = 0b01#2) (hk : pagerK w = pagerK w') (ho : pagerO w = pagerO w') :
    decodePagerWord w = decodePagerWord w' := by
  refine decodePagerWord_congr hop hb fun b => ?_
  rw [← hop, ← hs, ← hk, ← ho, hread, pagerInstr_firstLast_congr hsel _ _ _ _ (pagerN w')]
  exact pagerInstr_read_congr ..

theorem decodePagerWord_firstLast_congr (hsel : pagerK w = 0b00#2 ∨ pagerK w = 0b01#2)
    (hk : pagerK w = pagerK w') (ho : pagerO w = pagerO w') (hd : pagerD w = pagerD w') :
    decodePagerWord w = decodePagerWord w' := by
  refine decodePagerWord_congr hop hb fun b => ?_
  rw [← hop, ← hs, ← hk, ← ho, ← hd]
  exact pagerInstr_firstLast_congr hsel ..

end PagerFields

/-- Settles O5: bits 31 to 24 hold Z and OP, bits 59 to 56 hold S and B, and the fields that may still differ are those
the code ignores. -/
theorem ignoredFieldsDecideNothing : Obligations.IgnoredFieldsDecideNothing := by
  refine ⟨fun v w w' hhigh => ?_, fun w w' hop hsb => ?_⟩
  · have hz : mapperZ w = mapperZ w' := extractLsb'_congr_sub (by decide) (by decide) hhigh
    have hop : mapperOp w = mapperOp w' := extractLsb'_congr_sub (by decide) (by decide) hhigh
    exact ⟨decodeMapperWord_mirror_congr hz hop, decodeMapperWord_read_congr hz hop⟩
  · have hs : pagerS w = pagerS w' := extractLsb'_congr_sub (by decide) (by decide) hsb
    have hb : pagerB w = pagerB w' := extractLsb'_congr_sub (by decide) (by decide) hsb
    refine ⟨decodePagerWord_count_congr hop hs hb, fun hk ho => ⟨?_, ?_, ?_⟩⟩
    · exact fun hread hn => decodePagerWord_read_congr hop hs hb hread hk hn ho
    · exact fun hread hsel => decodePagerWord_readFirstLast_congr hop hs hb hread hsel hk ho
    · exact fun _ hsel hd => decodePagerWord_firstLast_congr hop hs hb hsel hk ho hd

/-! The reserved encodings. -/

/-- The codes from 5 on are those that name no operation (30_encoding.md R54). -/
theorem reservedMapperOp_iff (op : BitVec 3) :
    5 ≤ op.toNat ↔ op ≠ 0b000#3 ∧ op ≠ 0b001#3 ∧ op ≠ 0b010#3 ∧ op ≠ 0b011#3 ∧ op ≠ 0b100#3 := by
  revert op
  decide

theorem decodeMapperOp_error_iff (v : Variant) (op : BitVec 3) (a : Addr) (d : Byte) :
    (∃ e, decodeMapperOp v op a d = .error e) ↔ 5 ≤ op.toNat := by
  rw [reservedMapperOp_iff]
  cases v with
  | mapper2 =>
    simp only [decodeMapperOp, decodeMapper2Op]
    split_ifs <;> simp [*]
  | mapper3 =>
    simp only [decodeMapperOp, decodeMapper3Op]
    split_ifs <;> simp [*]

theorem decodeMapperWord_error_iff (v : Variant) (w : BitVec 32) :
    (∃ e, decodeMapperWord v w = .error e) ↔ mapperZ w ≠ 0#5 ∨ 5 ≤ (mapperOp w).toNat := by
  unfold decodeMapperWord
  split_ifs with hz
  · simp only [decodeMapperOp_error_iff, hz, ne_eq, not_true_eq_false, false_or]
  · exact iff_of_true ⟨_, rfl⟩ (.inl hz)

/-- The one buffer select without a buffer (10_state.md R24). -/
theorem decodeBuffer_eq_none_iff (b : BitVec 2) : decodeBuffer b = none ↔ b = 0b11#2 := by
  revert b
  decide

theorem decodePagerWord_error_iff (w : BitVec 64) :
    (∃ e, decodePagerWord w = .error e) ↔ pagerOp w = 0b11#2 ∨ pagerB w = 0b11#2 := by
  rw [← decodeBuffer_eq_none_iff (pagerB w)]
  unfold decodePagerWord
  split_ifs with hop
  · exact iff_of_true ⟨_, rfl⟩ (.inl hop)
  · cases decodeBuffer (pagerB w) with
    | none => exact iff_of_true ⟨_, rfl⟩ (.inr rfl)
    | some b => exact iff_of_false nofun (by simp [hop])

/-- Settles O6: the decoder of each port errs on its reserved codes alone, and the step passes the error on as a
refusal. -/
theorem refusedWordsAreTheReservedOnes : Obligations.RefusedWordsAreTheReservedOnes :=
  ⟨decodeMapperWord_error_iff, decodePagerWord_error_iff, fun _ _ _ _ hf hp hd => step_of_decode_error hf hp hd⟩

/-! The spec's examples, evaluated. -/

/-- Settles O3: the decoder evaluates on each of the ten words. -/
theorem exampleWordsDecode : Obligations.ExampleWordsDecode :=
  ⟨rfl, rfl, rfl, rfl, rfl, rfl, rfl, rfl, rfl, rfl⟩

/-- Settles O4: the assembler's reader evaluates on each of the ten lines. -/
theorem exampleLinesAssemble : Obligations.ExampleLinesAssemble := by
  unfold Obligations.ExampleLinesAssemble
  decide

/-- Settles O7: at a live block `fetch` takes the transaction and hands over what it decodes to. -/
theorem stepRunsTheDecodedInstruction : Obligations.StepRunsTheDecodedInstruction :=
  fun _ _ _ _ hf hp hd => step_of_decode_ok hf hp hd

end Sys2Proof.Machine

/-! Lemmas and proofs about 41_pager.md: page counts (R68), what a selector resolves to (R69 to R73, R79), and the three
operations of the Pager port (R76 to R78, R80). -/

namespace Sys2Proof.Machine

open Claims

/-! Page counts and selectors. -/

theorem pageCount_ok_iff {b : Block} {id : BufferId} {s : PageSizeKb} {pc : Nat} :
    pageCount b id s = .ok pc ↔
      (b.buffer id).length % sizeBytes s = 0 ∧ pc = (b.buffer id).length / sizeBytes s := by
  by_cases hm : (b.buffer id).length % sizeBytes s = 0
  · simp [pageCount_exact hm, hm, eq_comm]
  · simp [pageCount_malformed hm, hm]

/-- The model's bank of a selector is the one the spec's relation names, and there is none where it names none
(41_pager.md R69 to R71). -/
theorem canonicalBank_eq_some_iff {pc n : Nat} {p : Page} : canonicalBank pc p = some n ↔ SelectsBank pc p n := by
  cases p with
  | first s => simp [SelectsBank, eq_comm]
  | number k s => simp [SelectsBank, eq_comm]
  | last s =>
    simp only [canonicalBank, SelectsBank]
    split_ifs with hpc
    · simp [hpc]
    · rw [Option.some.injEq]; omega
  | fromEnd d s =>
    simp only [canonicalBank, SelectsBank]
    split_ifs with hd
    · simp only [false_iff]; omega
    · rw [Option.some.injEq]; omega

/-- At a size that divides the length, a resolution fails on its bounds alone. -/
theorem pagerIndex_error_kind {b : Block} {id : BufferId} {p : Page} {o : Addr} {e : FaultInfo}
    (hm : (b.buffer id).length % sizeBytes (pageSize p) = 0) (h : pagerIndex b id p o = .error e) :
    faultKind e = .pageBoundsFault := by
  obtain ⟨why, rfl⟩ | ⟨hm', -⟩ := pagerIndex_error_cases h
  · rfl
  · exact absurd hm hm'

/-- Settles O33: a page count is decided by divisibility, and so is whether a resolution can be malformed. -/
theorem pageCountDividesExactlyOrFaults : Obligations.PageCountDividesExactlyOrFaults := by
  intro b id s
  refine ⟨fun hm => ⟨pageCount_exact hm, ?_⟩, fun hm => ⟨pageCount_malformed hm, ?_⟩, fun hlen => ?_⟩
  · rintro page off e rfl h
    exact pagerIndex_error_kind hm h
  · rintro page off rfl
    exact pagerIndex_malformed hm
  · exact pageCount_ok_iff.mpr (by simp [hlen])

/-- Selectors of one size that name the same bank, or both none, resolve alike (41_pager.md R79). -/
theorem sameResolution_of_canonicalBank_eq {b : Block} {id : BufferId} {p p' : Page} (o : Addr)
    (hs : pageSize p = pageSize p')
    (hc : ∀ pc, pageCount b id (pageSize p') = .ok pc → canonicalBank pc p = canonicalBank pc p') :
    SameResolution (pagerIndex b id p o) (pagerIndex b id p' o) := by
  unfold pagerIndex
  rw [hs]
  cases hpc : pageCount b id (pageSize p') with
  | error e => exact rfl
  | ok pc =>
    simp only [hc pc hpc]
    cases canonicalBank pc p' with
    | none => exact rfl
    | some n =>
      simp only
      split_ifs <;> exact rfl

/-- A selector that names no bank of the page count faults on its bank (D14). -/
theorem pagerIndex_of_canonicalBank_none {b : Block} {id : BufferId} {p : Page} {pc : Nat} (o : Addr)
    (hpc : pageCount b id (pageSize p) = .ok pc) (hc : canonicalBank pc p = none) :
    pagerIndex b id p o = .error (.pageBounds id p o .bankRange) := by
  simp only [pagerIndex, hpc, hc]

/-- Settles O34: each pair of selectors has one canonical bank, and a selector without one faults on its bank. -/
theorem selectorsReduceToNumbers : Obligations.SelectorsReduceToNumbers := by
  intro b id s off
  refine ⟨sameResolution_of_canonicalBank_eq off rfl fun pc _ => rfl,
    sameResolution_of_canonicalBank_eq off rfl fun pc _ => ?_, fun pc hpc => ⟨fun h1 => ?_, fun n hn => ?_,
    fun h0 => pagerIndex_of_canonicalBank_none off hpc ?_,
    fun n hn => pagerIndex_of_canonicalBank_none off hpc ?_⟩⟩
  · simp [canonicalBank]
  · refine sameResolution_of_canonicalBank_eq off rfl fun pc' hpc' => ?_
    obtain rfl : pc = pc' := Except.ok.inj (hpc.symm.trans hpc')
    exact canonicalBank_eq_some_iff.mpr (Nat.sub_add_cancel h1)
  · refine sameResolution_of_canonicalBank_eq off rfl fun pc' hpc' => ?_
    obtain rfl : pc = pc' := Except.ok.inj (hpc.symm.trans hpc')
    refine canonicalBank_eq_some_iff.mpr ?_
    simp only [SelectsBank]
    omega
  · simp [canonicalBank, h0]
  · simp [canonicalBank, hn]

/-! A resolved index. -/

/-- A Number's bank and offset are the quotient and the remainder of the index they resolve to. -/
theorem pagerIndex_number_div_mod {b : Block} {id : BufferId} {s : PageSizeKb} {n i : Nat} {o : Addr}
    (h : pagerIndex b id (.number n s) o = .ok i) : i / sizeBytes s = n ∧ i % sizeBytes s = o.toNat := by
  obtain ⟨-, m, hm, -, ho, hi⟩ := pagerIndex_ok_iff.mp h
  cases hm
  exact (Nat.div_mod_unique (sizeBytes_pos s)).mpr ⟨by rw [hi, pageSize_number]; ring, ho⟩

/-- Settles O35: the index is that of the canonical bank, and division gives a Number's bank and offset back. -/
theorem resolvedIndexIsInItsPage : Obligations.ResolvedIndexIsInItsPage := by
  refine ⟨fun b id page off i h => ?_, fun b id s n n' off off' i h h' => ?_⟩
  · obtain ⟨-, n, hc, hn, ho, hi⟩ := pagerIndex_ok_iff.mp h
    refine ⟨n, canonicalBank_eq_some_iff.mp hc, hn, ho, hi, pagerIndex_lt h, ?_, ?_⟩
    · omega
    · rw [Nat.succ_mul]; omega
  · obtain ⟨hdiv, hmod⟩ := pagerIndex_number_div_mod h
    obtain ⟨hdiv', hmod'⟩ := pagerIndex_number_div_mod h'
    exact ⟨hdiv.symm.trans hdiv', BitVec.eq_of_toNat_eq (hmod.symm.trans hmod')⟩

/-- The index at the bank a selector names (41_pager.md R72). -/
theorem pagerIndex_of_selectsBank {b : Block} {id : BufferId} {p : Page} {o : Addr} {n : Nat}
    (hm : (b.buffer id).length % sizeBytes (pageSize p) = 0)
    (hb : SelectsBank ((b.buffer id).length / sizeBytes (pageSize p)) p n)
    (hn : n < (b.buffer id).length / sizeBytes (pageSize p)) (ho : o.toNat < sizeBytes (pageSize p)) :
    pagerIndex b id p o = .ok (n * sizeBytes (pageSize p) + o.toNat) :=
  pagerIndex_inRange hm (canonicalBank_eq_some_iff.mpr hb) hn ho

/-- The bank check, from the banks a selector names (41_pager.md R72). -/
theorem pagerIndex_bankRange_of_selectsBank {b : Block} {id : BufferId} {p : Page} {o : Addr}
    (hm : (b.buffer id).length % sizeBytes (pageSize p) = 0)
    (hb : ∀ n, SelectsBank ((b.buffer id).length / sizeBytes (pageSize p)) p n →
      (b.buffer id).length / sizeBytes (pageSize p) ≤ n) :
    pagerIndex b id p o = .error (.pageBounds id p o .bankRange) :=
  pagerIndex_bankRange hm fun n hc => hb n (canonicalBank_eq_some_iff.mp hc)

/-- The offset check, at the bank a selector names (41_pager.md R72). -/
theorem pagerIndex_offsetRange_of_selectsBank {b : Block} {id : BufferId} {p : Page} {o : Addr} {n : Nat}
    (hm : (b.buffer id).length % sizeBytes (pageSize p) = 0)
    (hb : SelectsBank ((b.buffer id).length / sizeBytes (pageSize p)) p n)
    (hn : n < (b.buffer id).length / sizeBytes (pageSize p)) (ho : sizeBytes (pageSize p) ≤ o.toNat) :
    pagerIndex b id p o = .error (.pageBounds id p o .offsetRange) :=
  pagerIndex_offsetRange hm (canonicalBank_eq_some_iff.mpr hb) hn ho

/-! The Pager port's operations at a live block, from what the access resolves to. -/

section PagerPort
variable {s : State} {id : BufferId} {p : Page} {o : Addr}

theorem exec_pgRead_ok {i : Nat} (hf : s.block.fault = none) (hi : pagerIndex s.block id p o = .ok i) :
    exec (.pgRead id p o) s = .next (delivers s ((s.block.buffer id).read i)) := by
  rw [exec_live hf rfl]
  simp only [effectOf, performTarget, pagerRead, hi, conclude_ok]
  rfl

theorem exec_pgRead_error {e : FaultInfo} (hf : s.block.fault = none) (he : pagerIndex s.block id p o = .error e) :
    exec (.pgRead id p o) s = .next (takeFault s .pgRead e) := by
  rw [exec_live hf rfl]
  simp only [effectOf, performTarget, pagerRead_error_iff.mpr he, conclude_error, Instr.operation]

theorem exec_pgWrite_ok {i : Nat} (v : Byte) (hf : s.block.fault = none) (hi : pagerIndex s.block id p o = .ok i) :
    exec (.pgWrite id p o v) s = .next (completesWith s (s.block.setBuffer id ((s.block.buffer id).write i v))) := by
  rw [exec_live hf rfl]
  simp only [effectOf, performTarget, pagerWrite, hi, conclude_ok]
  rfl

theorem exec_pgWrite_error {e : FaultInfo} (v : Byte) (hf : s.block.fault = none)
    (he : pagerIndex s.block id p o = .error e) :
    exec (.pgWrite id p o v) s = .next (takeFault s .pgWrite e) := by
  rw [exec_live hf rfl]
  simp only [effectOf, performTarget, pagerWrite_error_iff.mpr he, conclude_error, Instr.operation]

end PagerPort

/-- Settles O36: PG_READ delivers the byte at the index its access resolves to, or takes the resolution's fault. -/
theorem pagerReadsSelectedByte : Obligations.PagerReadsSelectedByte := by
  intro s id page off hf
  exact ⟨fun n hm hb hn ho => exec_pgRead_ok hf (pagerIndex_of_selectsBank hm hb hn ho),
    fun hm => exec_pgRead_error hf (pagerIndex_malformed hm),
    fun hm hb => exec_pgRead_error hf (pagerIndex_bankRange_of_selectsBank hm hb),
    fun n hm hb hn ho => exec_pgRead_error hf (pagerIndex_offsetRange_of_selectsBank hm hb hn ho)⟩

/-- Settles O37: PG_WRITE replaces the byte at the index its access resolves to, or takes the resolution's fault. -/
theorem pagerWritesSelectedByte : Obligations.PagerWritesSelectedByte := by
  intro s id page off v hf
  exact ⟨fun n hm hb hn ho => exec_pgWrite_ok v hf (pagerIndex_of_selectsBank hm hb hn ho),
    fun hm => exec_pgWrite_error v hf (pagerIndex_malformed hm),
    fun hm hb => exec_pgWrite_error v hf (pagerIndex_bankRange_of_selectsBank hm hb),
    fun n hm hb hn ho => exec_pgWrite_error v hf (pagerIndex_offsetRange_of_selectsBank hm hb hn ho)⟩

/-- Settles O38: PG_COUNT answers the page count, or takes its fault. -/
theorem pagerCountsPages : Obligations.PagerCountsPages := by
  intro s id size hf
  rw [exec_live hf rfl]
  refine ⟨fun hm => ?_, fun hm => ?_⟩
  · simp only [effectOf, performCount, pageCount_exact hm, conclude_ok]
  · simp only [effectOf, performCount, pageCount_malformed hm, conclude_error, Instr.operation]

/-! What PG_WRITE leaves behind. -/

/-- Every byte of every buffer after one byte of one buffer is replaced. -/
theorem read_setBuffer_write (b : Block) (id id' : BufferId) (i j : Nat) (v : Byte) :
    ((b.setBuffer id ((b.buffer id).write i v)).buffer id').read j =
      if id' = id ∧ j = i then v else (b.buffer id').read j := by
  by_cases hid : id' = id
  · subst hid
    rw [setBuffer_buffer_same]
    by_cases hj : j = i
    · subst hj
      simp
    · simp [hj, buffer_read_write_other hj]
  · simp [hid, setBuffer_buffer_other b hid]

/-- Settles O39: the completed write replaced the byte at its index and kept what resolutions depend on, so the read
resolves as before the write. -/
theorem pagerWriteIsReadBack : Obligations.PagerWriteIsReadBack := by
  intro s t id page off v i h ht hi id' page' off' j hj
  have hj' : pagerIndex t.block id' page' off' = .ok j :=
    (pagerIndex_of_fixture (exec_keeps_fixture h) id' page' off').trans hj
  have htb : t = completesWith s (s.block.setBuffer id ((s.block.buffer id).write i v)) :=
    Host.Outcome.next.inj (h.symm.trans (exec_pgWrite_ok v (exec_next_live h).1 hi))
  have hbyte : (t.block.buffer id').read j =
      if id' = id ∧ j = i then v else (s.block.buffer id').read j := by
    rw [htb]
    exact read_setBuffer_write s.block id id' i j v
  rw [exec_pgRead_ok ht hj', hbyte]

theorem storedByte_pgWrite_eq_some_iff {b : Block} {id id' : BufferId} {p : Page} {o : Addr} {v : Byte} {j : Nat} :
    storedByte b (.pgWrite id p o v) = some (id', j) ↔ pagerIndex b id p o = .ok j ∧ id' = id := by
  simp only [storedByte]
  cases pagerIndex b id p o with
  | error e => simp [Except.toOption]
  | ok i => simp [Except.toOption, eq_comm, and_comm]

/-- An operation that ends with a fault record has every buffer as it was (60_exceptions.md R114). -/
theorem exec_faulting_keeps_buffer {i : Instr} {s t : State} (h : exec i s = .next t) (ht : t.block.fault ≠ none)
    (id : BufferId) : t.block.buffer id = s.block.buffer id := by
  obtain ⟨hf, hv, ⟨b, resp, heff, rfl⟩ | ⟨e, -, rfl⟩⟩ := exec_next_cases h
  · exact absurd ((effectOf_ok_fault hv heff).trans hf) ht
  · exact buffer_withFault ..

/-- Settles O43: PG_WRITE is no bank select and stores at the index it resolves, in its own buffer. -/
theorem pagerWriteChangesOneByte : Obligations.PagerWriteChangesOneByte := by
  intro id page off v s t h
  refine ⟨exec_next_pending h, exec_keeps_fixture h, exec_keeps_mapper (by simp [Instr.operation]) h,
    fun id' hid => ?_, fun k hk j hj => ?_, fun ht => exec_faulting_keeps_buffer h ht id⟩
  · obtain hb | ⟨j, w, hst, -, -⟩ := exec_next_buffer_cases h id'
    · exact hb
    · exact absurd (storedByte_pgWrite_eq_some_iff.mp hst).2 hid
  · refine (bytesChangeOnlyWhereStored _ s t h id).2 j fun hst => hj ?_
    exact Except.ok.inj ((storedByte_pgWrite_eq_some_iff.mp hst).1.symm.trans hk)

end Sys2Proof.Machine

/-! Lemmas and proofs about 42_mapper_capability.md: the two address domains (R83, R84, R88) and the faults a mapper
operation can take (R85 to R87). -/

namespace Sys2Proof.Machine

/-! The domain checks and the window decode, over the address as a number. -/

theorem prgDomainFault_eq_none_iff {op : Operation} {a : Addr} : prgDomainFault op a = none ↔ 0x8000 ≤ a.toNat := by
  refine ⟨fun h => ?_, prgDomainFault_inside op⟩
  by_contra hlt
  rw [prgDomainFault_below op (Nat.not_le.mp hlt)] at h
  cases h

theorem chrDomainFault_eq_none_iff {op : Operation} {a : Addr} : chrDomainFault op a = none ↔ a.toNat < 0x2000 := by
  refine ⟨fun h => ?_, chrDomainFault_inside op⟩
  by_contra hge
  rw [chrDomainFault_above op (Nat.not_lt.mp hge)] at h
  cases h

/-- Both program windows are one 16 KB page long (42_mapper_capability.md R86). -/
theorem windowOffset_lt {a : Addr} (h : 0x8000 ≤ a.toNat) : (windowOffset a).toNat < sizeBytes .kb16 := by
  have ha := a.isLt
  rw [sizeBytes_kb16]
  by_cases hlow : a.toNat ≤ 0xBFFF
  · rw [windowOffset_low h hlow]; omega
  · rw [windowOffset_high (by omega)]; omega

@[simp] theorem pageSize_mapper2PrgPage (prg0 : BitVec 4) (a : Addr) : pageSize (mapper2PrgPage prg0 a) = .kb16 := by
  unfold mapper2PrgPage
  split_ifs <;> rfl

@[simp] theorem pageSize_mapper3PrgPage (a : Addr) : pageSize (mapper3PrgPage a) = .kb16 := by
  unfold mapper3PrgPage
  split_ifs <;> rfl

@[simp] theorem pageSize_mapper2ChrPage : pageSize mapper2ChrPage = .kb8 := rfl

@[simp] theorem pageSize_mapper3ChrPage (chr0 : BitVec 8) : pageSize (mapper3ChrPage chr0) = .kb8 := rfl

/-! A mapper operation is its domain check and then a target whose offset lies in its page. -/

/-- The fault of an instruction's domain check, if it takes it; MIRROR and the Pager commands have no check. -/
def domainFaultOf : Instr → Option FaultInfo
  | .m2RdPrg a => prgDomainFault .rdPrg a
  | .m2WrPrg a _ => prgDomainFault .wrPrg a
  | .m2RdChr a => chrDomainFault .rdChr a
  | .m2WrChr a _ => chrDomainFault .wrChr a
  | .m2Mirror => none
  | .m3RdPrg a => prgDomainFault .rdPrg a
  | .m3WrPrg a _ => prgDomainFault .wrPrg a
  | .m3RdChr a => chrDomainFault .rdChr a
  | .m3WrChr a _ => chrDomainFault .wrChr a
  | .m3Mirror => none
  | .pgRead _ _ _ => none
  | .pgWrite _ _ _ _ => none
  | .pgCount _ _ => none

/-- Where the target is a Pager access, its offset is inside a page of its selector's size. -/
def Target.OffsetInPage : Target → Prop
  | .pagerRead _ p o => o.toNat < sizeBytes (pageSize p)
  | .pagerWrite _ p o _ => o.toNat < sizeBytes (pageSize p)
  | .regWrite _ => True
  | .discard => True
  | .headerRead => True

/-- The program-space reads address 16 KB pages by window offsets, the character-space accesses 8 KB pages by the
address itself (42_mapper_capability.md R86, R87). -/
theorem effectOf_mapperOperation {b : Block} {i : Instr}
    (hi : i.operation ∈ [.rdPrg, .wrPrg, .rdChr, .wrChr, .mirror])
    (hv : i.availableOn (mapperVariant b.mapper) = true) :
    ∃ g, effectOf b i = driveTarget b (domainFaultOf i) g ∧ (domainFaultOf i = none → g.OffsetInPage) := by
  cases i with
  | m2RdPrg a =>
    cases hm : b.mapper with
    | mapper2 prg0 =>
      refine ⟨_, by simp only [effectOf, hm]; rfl, fun hd => ?_⟩
      simpa [Target.OffsetInPage] using windowOffset_lt (prgDomainFault_eq_none_iff.mp hd)
    | mapper3 chr0 => simp [Instr.availableOn, mapperVariant, hm] at hv
  | m3RdPrg a =>
    refine ⟨_, rfl, fun hd => ?_⟩
    simpa [Target.OffsetInPage] using windowOffset_lt (prgDomainFault_eq_none_iff.mp hd)
  | m2RdChr a => exact ⟨_, rfl, fun hd => chrDomainFault_eq_none_iff.mp hd⟩
  | m3RdChr a =>
    cases hm : b.mapper with
    | mapper2 prg0 => simp [Instr.availableOn, mapperVariant, hm] at hv
    | mapper3 chr0 =>
      refine ⟨_, by simp only [effectOf, hm]; rfl, fun hd => ?_⟩
      exact chrDomainFault_eq_none_iff.mp hd
  | m2WrChr a d =>
    refine ⟨_, rfl, fun hd => ?_⟩
    split_ifs
    · exact chrDomainFault_eq_none_iff.mp hd
    · trivial
  | m2WrPrg a d | m3WrPrg a d | m3WrChr a d => exact ⟨_, rfl, fun _ => trivial⟩
  | m2Mirror | m3Mirror => exact ⟨.headerRead, rfl, fun _ => trivial⟩
  | pgRead id p o | pgWrite id p o v | pgCount id size => simp [Instr.operation] at hi

theorem domainFaultOf_some {i : Instr} {e : FaultInfo} (h : domainFaultOf i = some e) :
    ∃ a, e = .address i.operation a := by
  cases i with
  | m2RdPrg a | m2WrPrg a d | m3RdPrg a | m3WrPrg a d => exact ⟨a, (prgDomainFault_some h).2⟩
  | m2RdChr a | m2WrChr a d | m3RdChr a | m3WrChr a d => exact ⟨a, (chrDomainFault_some h).2⟩
  | m2Mirror | m3Mirror | pgRead id p o | pgWrite id p o v | pgCount id size => cases h

/-! The faults of a mapper operation. -/

/-- The fault a next state has is the one its instruction's effect ended in. -/
theorem exec_next_fault {i : Instr} {s t : State} {rec : FaultRecord} (h : exec i s = .next t)
    (hrec : t.block.fault = some rec) : effectOf s.block i = .error rec.info := by
  obtain ⟨hf, hv, ⟨b, resp, heff, rfl⟩ | ⟨e, heff, rfl⟩⟩ := exec_next_cases h
  · exact absurd (hrec.symm.trans ((effectOf_ok_fault hv heff).trans hf)) (by simp)
  · cases hrec
    exact heff

/-- A mapper operation faults in its domain check, or in the resolution of an access whose offset is in its page
(42_mapper_capability.md R85 to R87). -/
theorem mapperOperation_fault_cases {i : Instr} {s t : State} {rec : FaultRecord}
    (hi : i.operation ∈ [.rdPrg, .wrPrg, .rdChr, .wrChr, .mirror]) (h : exec i s = .next t)
    (hrec : t.block.fault = some rec) :
    domainFaultOf i = some rec.info ∨
      (domainFaultOf i = none ∧
        ∃ id p o, o.toNat < sizeBytes (pageSize p) ∧ pagerIndex s.block id p o = .error rec.info) := by
  obtain ⟨g, heff, hoff⟩ := effectOf_mapperOperation hi (exec_next_live h).2
  obtain hd | ⟨hd, hperf⟩ := driveTarget_error_cases (heff.symm.trans (exec_next_fault h hrec))
  · exact .inl hd
  · obtain ⟨id, p, o, rfl, he⟩ | ⟨id, p, o, v, rfl, he⟩ := performTarget_error_cases hperf
    · exact .inr ⟨hd, id, p, o, hoff hd, he⟩
    · exact .inr ⟨hd, id, p, o, hoff hd, he⟩

/-- The offset check passes for an offset inside the page (41_pager.md R72). -/
theorem pagerIndex_ne_offsetRange {b : Block} {id id' : BufferId} {p p' : Page} {o o' : Addr}
    (ho : o.toNat < sizeBytes (pageSize p)) :
    pagerIndex b id p o ≠ .error (.pageBounds id' p' o' .offsetRange) := by
  by_cases hm : (b.buffer id).length % sizeBytes (pageSize p) = 0
  · cases hc : canonicalBank ((b.buffer id).length / sizeBytes (pageSize p)) p with
    | none => simp [pagerIndex_bankRange hm, hc]
    | some n =>
      by_cases hn : n < (b.buffer id).length / sizeBytes (pageSize p)
      · simp [pagerIndex_inRange hm hc hn ho]
      · rw [pagerIndex_bankRange hm (by simpa [hc] using hn)]
        simp
  · simp [pagerIndex_malformed hm]

/-- Settles O12: such a fault comes from a resolution whose offset is in its page, so from the bank check. -/
theorem mapperFaultsAreNeverOffsetRange : Obligations.MapperFaultsAreNeverOffsetRange := by
  intro i s t rec id page off why hi h hrec hinfo
  obtain hd | ⟨-, id', p, o, ho, he⟩ := mapperOperation_fault_cases hi h hrec
  · obtain ⟨a, ha⟩ := domainFaultOf_some hd
    cases hinfo.symm.trans ha
  · rw [hinfo] at he
    cases why with
    | bankRange => rfl
    | offsetRange => exact absurd he (pagerIndex_ne_offsetRange ho)

/-! The two sides of a domain. -/

section Domain
variable {s : State} {i : Instr}

theorem exec_outOfDomain {e : FaultInfo} (hi : i.operation ∈ [.rdPrg, .wrPrg, .rdChr, .wrChr, .mirror])
    (hf : s.block.fault = none) (hv : i.availableOn (mapperVariant s.block.mapper) = true)
    (hd : domainFaultOf i = some e) : exec i s = .next (takeFault s i.operation e) := by
  obtain ⟨g, heff, -⟩ := effectOf_mapperOperation hi hv
  rw [exec_live hf hv, heff, hd]
  rfl

theorem exec_live_next (hf : s.block.fault = none) (hv : i.availableOn (mapperVariant s.block.mapper) = true) :
    ∃ t, exec i s = .next t := by
  rw [exec_live hf hv]
  cases effectOf s.block i with
  | ok x => exact ⟨_, rfl⟩
  | error e => exact ⟨_, rfl⟩

/-- An operation that passes its domain check can fault only in a resolution, and a resolution raises no
AddressFault. -/
theorem exec_inDomain (hi : i.operation ∈ [.rdPrg, .wrPrg, .rdChr, .wrChr, .mirror])
    (hf : s.block.fault = none) (hv : i.availableOn (mapperVariant s.block.mapper) = true)
    (hd : domainFaultOf i = none) :
    ∃ t, exec i s = .next t ∧ ∀ rec, t.block.fault = some rec → recordKind rec ≠ .addressFault := by
  obtain ⟨t, ht⟩ := exec_live_next hf hv
  refine ⟨t, ht, fun rec hrec => ?_⟩
  obtain hd' | ⟨-, id, p, o, -, he⟩ := mapperOperation_fault_cases hi ht hrec
  · cases hd.symm.trans hd'
  · obtain ⟨why, hinfo⟩ | ⟨-, hinfo⟩ := pagerIndex_error_cases he
    · simp [recordKind, hinfo, faultKind]
    · simp [recordKind, hinfo, faultKind]

end Domain

theorem domainFaultOf_programOperation {i : Instr} {a : Addr} {d : Byte}
    (hi : i ∈ [.m2RdPrg a, .m2WrPrg a d, .m3RdPrg a, .m3WrPrg a d]) :
    i.operation ∈ [.rdPrg, .wrPrg, .rdChr, .wrChr, .mirror] ∧ domainFaultOf i = prgDomainFault i.operation a := by
  simp only [List.mem_cons, List.not_mem_nil, or_false] at hi
  obtain rfl | rfl | rfl | rfl := hi <;> exact ⟨by simp [Instr.operation], rfl⟩

theorem domainFaultOf_characterOperation {i : Instr} {a : Addr} {d : Byte}
    (hi : i ∈ [.m2RdChr a, .m2WrChr a d, .m3RdChr a, .m3WrChr a d]) :
    i.operation ∈ [.rdPrg, .wrPrg, .rdChr, .wrChr, .mirror] ∧ domainFaultOf i = chrDomainFault i.operation a := by
  simp only [List.mem_cons, List.not_mem_nil, or_false] at hi
  obtain rfl | rfl | rfl | rfl := hi <;> exact ⟨by simp [Instr.operation], rfl⟩

/-- Settles O13: the check of the four instructions is `prgDomainFault`, taken exactly below 0x8000. -/
theorem programDomainStartsAt8000 : Obligations.ProgramDomainStartsAt8000 := by
  intro s a d i hf hi hv
  obtain ⟨hop, hd⟩ := domainFaultOf_programOperation hi
  exact ⟨fun ha => exec_outOfDomain hop hf hv (hd.trans (prgDomainFault_below _ ha)),
    fun ha => exec_inDomain hop hf hv (hd.trans (prgDomainFault_inside _ ha))⟩

/-- Settles O14: the check of the four instructions is `chrDomainFault`, taken exactly from 0x2000 on, and a discarded
write is checked first like any other. -/
theorem characterDomainEndsAt2000 : Obligations.CharacterDomainEndsAt2000 := by
  intro s a d i hf hi hv
  obtain ⟨hop, hd⟩ := domainFaultOf_characterOperation hi
  exact ⟨fun ha => exec_outOfDomain hop hf hv (hd.trans (chrDomainFault_above _ ha)),
    fun ha => exec_inDomain hop hf hv (hd.trans (chrDomainFault_inside _ ha))⟩

end Sys2Proof.Machine

/-! Lemmas and proofs about 43_mapper2_uxrom.md: the automaton (R90), the five Mapper2 operations (R91 to R96), and the
frames of the two mappers' writes. -/

namespace Sys2Proof.Machine

open Claims

/-! The end of a Pager access, from what it resolves to. -/

section PagerTarget
variable {s : State} {op : Operation} {id : BufferId} {p : Page} {o : Addr}

theorem conclude_read_ok {k : Nat} (hk : pagerIndex s.block id p o = .ok k) :
    conclude s op (performTarget s.block (.pagerRead id p o)) =
      .next (delivers s ((s.block.buffer id).read k)) := by
  simp only [performTarget, pagerRead_ok_iff.mpr ⟨k, hk, rfl⟩, conclude_ok]
  rfl

theorem conclude_read_error {e : FaultInfo} (he : pagerIndex s.block id p o = .error e) :
    conclude s op (performTarget s.block (.pagerRead id p o)) = .next (takeFault s op e) := by
  simp only [performTarget, pagerRead_error_iff.mpr he, conclude_error]

theorem conclude_write_ok {k : Nat} (v : Byte) (hk : pagerIndex s.block id p o = .ok k) :
    conclude s op (performTarget s.block (.pagerWrite id p o v)) =
      .next (completesWith s (s.block.setBuffer id ((s.block.buffer id).write k v))) := by
  simp only [performTarget, pagerWrite_ok_iff.mpr ⟨k, hk, rfl⟩, conclude_ok]
  rfl

theorem conclude_write_error {e : FaultInfo} (v : Byte) (he : pagerIndex s.block id p o = .error e) :
    conclude s op (performTarget s.block (.pagerWrite id p o v)) = .next (takeFault s op e) := by
  simp only [performTarget, pagerWrite_error_iff.mpr he, conclude_error]

end PagerTarget

/-! The first and the last page of a buffer of whole pages (41_pager.md R69, R70, R72). -/

section FirstAndLast
variable {b : Block} {id : BufferId} {size : PageSizeKb} {o : Addr}

theorem one_le_pageCount (hm : (b.buffer id).length % sizeBytes size = 0) (h0 : (b.buffer id).length ≠ 0) :
    1 ≤ (b.buffer id).length / sizeBytes size :=
  Nat.div_pos (Nat.le_of_dvd (Nat.pos_of_ne_zero h0) (Nat.dvd_of_mod_eq_zero hm)) (sizeBytes_pos size)

theorem pagerIndex_first (hm : (b.buffer id).length % sizeBytes size = 0) (h0 : (b.buffer id).length ≠ 0)
    (ho : o.toNat < sizeBytes size) : pagerIndex b id (.first size) o = .ok o.toNat := by
  rw [pagerIndex_inRange hm (canonicalBank_first ..) (one_le_pageCount hm h0) ho, Nat.zero_mul, Nat.zero_add]

theorem pagerIndex_first_empty (h0 : (b.buffer id).length = 0) :
    pagerIndex b id (.first size) o = .error (.pageBounds id (.first size) o .bankRange) :=
  pagerIndex_bankRange (by simp [h0]) (by simp [h0])

/-- The last page starts one page before the buffer's end. -/
theorem pagerIndex_last (hm : (b.buffer id).length % sizeBytes size = 0) (h0 : (b.buffer id).length ≠ 0)
    (ho : o.toNat < sizeBytes size) :
    pagerIndex b id (.last size) o = .ok ((b.buffer id).length - sizeBytes size + o.toNat) := by
  have hpc := one_le_pageCount hm h0
  have hstart : ((b.buffer id).length / sizeBytes size - 1) * sizeBytes size =
      (b.buffer id).length - sizeBytes size := by
    rw [Nat.sub_mul, Nat.one_mul, Nat.div_mul_cancel (Nat.dvd_of_mod_eq_zero hm)]
  have hbank : SelectsBank ((b.buffer id).length / sizeBytes size) (.last size)
      ((b.buffer id).length / sizeBytes size - 1) := Nat.sub_add_cancel hpc
  rw [pagerIndex_of_selectsBank hm hbank (Nat.sub_one_lt_of_lt hpc) ho, pageSize_last, hstart]

theorem pagerIndex_last_empty (h0 : (b.buffer id).length = 0) :
    pagerIndex b id (.last size) o = .error (.pageBounds id (.last size) o .bankRange) :=
  pagerIndex_bankRange (by simp [h0]) (by simp [h0, canonicalBank])

end FirstAndLast

/-! The window decode (42_mapper_capability.md R86), as R92 uses it. -/

theorem windowOffset_low_eq {a : Addr} (h : 0x8000 ≤ a.toNat) (h' : a.toNat ≤ 0xBFFF) :
    windowOffset a = BitVec.ofNat 16 (a.toNat - 0x8000) := by
  rw [← windowOffset_low h h', BitVec.ofNat_toNat, BitVec.setWidth_eq]

theorem windowOffset_high_eq {a : Addr} (h : 0xC000 ≤ a.toNat) :
    windowOffset a = BitVec.ofNat 16 (a.toNat - 0xC000) := by
  rw [← windowOffset_high h, BitVec.ofNat_toNat, BitVec.setWidth_eq]

/-- In the low window Mapper2 reads the selected bank. -/
theorem mapper2PrgPage_low (prg0 : BitVec 4) {a : Addr} (ha : a.toNat ≤ 0xBFFF) :
    mapper2PrgPage prg0 a = .number prg0.toNat .kb16 := by
  simp [mapper2PrgPage, (inLowWindow_iff a).mpr ha]

/-- The model's extraction of the low 4 bits is the spec's mask (43_mapper2_uxrom.md R93). -/
theorem prgBankOfData_eq_mask (d : Byte) : prgBankOfData d = (d &&& 0x0F#8).setWidth 4 := by
  ext i hi
  have : i = 0 ∨ i = 1 ∨ i = 2 ∨ i = 3 := by omega
  obtain rfl | rfl | rfl | rfl := this <;> simp [prgBankOfData]

/-! Each Mapper2 operation at a live block, past its domain check. -/

section Mapper2
variable {s : State} {prg0 : BitVec 4} {a : Addr}

theorem exec_m2RdPrg_inDomain (hm : s.block.mapper = .mapper2 prg0) (hf : s.block.fault = none)
    (ha : 0x8000 ≤ a.toNat) :
    exec (.m2RdPrg a) s =
      conclude s .rdPrg (performTarget s.block (.pagerRead .prgRom (mapper2PrgPage prg0 a) (windowOffset a))) := by
  rw [exec_live hf (by rw [hm]; rfl)]
  simp only [effectOf, hm, prgDomainFault_inside _ ha]
  rfl

theorem exec_m2WrPrg_inDomain (d : Byte) (hm : s.block.mapper = .mapper2 prg0) (hf : s.block.fault = none)
    (ha : 0x8000 ≤ a.toNat) :
    exec (.m2WrPrg a d) s =
      .next (completesWith s { s.block with mapper := .mapper2 ((d &&& 0x0F#8).setWidth 4) }) := by
  rw [exec_live hf (by rw [hm]; rfl), ← prgBankOfData_eq_mask]
  simp only [effectOf, prgDomainFault_inside _ ha]
  rfl

theorem exec_m2RdChr_inDomain (hm : s.block.mapper = .mapper2 prg0) (hf : s.block.fault = none)
    (ha : a.toNat < 0x2000) :
    exec (.m2RdChr a) s =
      conclude s .rdChr
        (performTarget s.block (.pagerRead (mapper2ChrBuffer s.block.chrRomPages) mapper2ChrPage a)) := by
  rw [exec_live hf (by rw [hm]; rfl)]
  simp only [effectOf, chrDomainFault_inside _ ha]
  rfl

theorem exec_m2WrChr_ram (d : Byte) (hm : s.block.mapper = .mapper2 prg0) (hf : s.block.fault = none)
    (ha : a.toNat < 0x2000) (hpages : s.block.chrRomPages = 0) :
    exec (.m2WrChr a d) s =
      conclude s .wrChr (performTarget s.block (.pagerWrite .chrRam mapper2ChrPage a d)) := by
  rw [exec_live hf (by rw [hm]; rfl)]
  simp only [effectOf, chrDomainFault_inside _ ha, hpages, if_true]
  rfl

theorem exec_m2WrChr_discard (d : Byte) (hm : s.block.mapper = .mapper2 prg0) (hf : s.block.fault = none)
    (ha : a.toNat < 0x2000) (hpages : s.block.chrRomPages ≠ 0) :
    exec (.m2WrChr a d) s = .next (completesWith s s.block) := by
  rw [exec_live hf (by rw [hm]; rfl)]
  simp only [effectOf, chrDomainFault_inside _ ha, hpages, if_false]
  rfl

theorem exec_m2WrPrg_outOfDomain (d : Byte) (hm : s.block.mapper = .mapper2 prg0) (hf : s.block.fault = none)
    (ha : a.toNat < 0x8000) : exec (.m2WrPrg a d) s = .next (takeFault s .wrPrg (.address .wrPrg a)) :=
  (programDomainStartsAt8000 s a d (.m2WrPrg a d) hf (by simp) (by rw [hm]; rfl)).1 ha

/-! M2.RD_CHR, over the buffer it reads (43_mapper2_uxrom.md R91, R94). -/

variable {id : BufferId}

theorem exec_m2RdChr_wholePages (hm : s.block.mapper = .mapper2 prg0) (hf : s.block.fault = none)
    (ha : a.toNat < 0x2000) (hid : mapper2ChrBuffer s.block.chrRomPages = id)
    (hlen : (s.block.buffer id).length % 8192 = 0) (h0 : (s.block.buffer id).length ≠ 0) :
    exec (.m2RdChr a) s = .next (delivers s ((s.block.buffer id).read a.toNat)) := by
  rw [exec_m2RdChr_inDomain hm hf ha, hid]
  exact conclude_read_ok (pagerIndex_first hlen h0 ha)

theorem exec_m2RdChr_malformed (hm : s.block.mapper = .mapper2 prg0) (hf : s.block.fault = none)
    (ha : a.toNat < 0x2000) (hid : mapper2ChrBuffer s.block.chrRomPages = id)
    (hlen : (s.block.buffer id).length % 8192 ≠ 0) :
    exec (.m2RdChr a) s =
      .next (takeFault s .rdChr (.malformedImage id (s.block.buffer id).length 8192)) := by
  rw [exec_m2RdChr_inDomain hm hf ha, hid]
  exact conclude_read_error (pagerIndex_malformed hlen)

theorem exec_m2RdChr_empty (hm : s.block.mapper = .mapper2 prg0) (hf : s.block.fault = none)
    (ha : a.toNat < 0x2000) (hid : mapper2ChrBuffer s.block.chrRomPages = id)
    (h0 : (s.block.buffer id).length = 0) :
    exec (.m2RdChr a) s = .next (takeFault s .rdChr (.pageBounds id (.first .kb8) a .bankRange)) := by
  rw [exec_m2RdChr_inDomain hm hf ha, hid]
  exact conclude_read_error (pagerIndex_first_empty h0)

end Mapper2

/-- Settles O15: the low window resolves in the selected bank, the high one in the last, and each takes the fault of
its resolution. -/
theorem mapper2ReadsProgramByte : Obligations.Mapper2ReadsProgramByte := by
  intro s prg0 a hm hf
  refine ⟨fun ha ha' hlen hbank => ?_, fun ha hlen h0 => ?_, fun ha => ?_, fun ha hlen => ?_,
    fun ha ha' hlen hbank => ?_, fun ha h0 => ?_⟩
  · rw [exec_m2RdPrg_inDomain hm hf ha, mapper2PrgPage_low prg0 ha', ← windowOffset_low ha ha']
    exact conclude_read_ok (pagerIndex_inRange hlen (canonicalBank_number ..) hbank (windowOffset_lt ha))
  · have ha8 : 0x8000 ≤ a.toNat := by omega
    rw [exec_m2RdPrg_inDomain hm hf ha8, mapper2PrgPage_high prg0 ha, ← windowOffset_high ha]
    exact conclude_read_ok (pagerIndex_last hlen h0 (windowOffset_lt ha8))
  · exact (programDomainStartsAt8000 s a 0#8 (.m2RdPrg a) hf (by simp) (by rw [hm]; rfl)).1 ha
  · have hlen' : (s.block.buffer .prgRom).length % sizeBytes (pageSize (mapper2PrgPage prg0 a)) ≠ 0 := by
      rwa [pageSize_mapper2PrgPage]
    rw [exec_m2RdPrg_inDomain hm hf ha, conclude_read_error (pagerIndex_malformed hlen'), pageSize_mapper2PrgPage]
    rfl
  · rw [exec_m2RdPrg_inDomain hm hf ha, mapper2PrgPage_low prg0 ha', ← windowOffset_low_eq ha ha']
    exact conclude_read_error (pagerIndex_bankRange_of_selectsBank hlen fun n hn => hn ▸ hbank)
  · rw [exec_m2RdPrg_inDomain hm hf (by omega), mapper2PrgPage_high prg0 ha, ← windowOffset_high_eq ha]
    exact conclude_read_error (pagerIndex_last_empty h0)

/-- Settles O16: in the domain the target is the register write, which consults no Pager; below it the check faults. -/
theorem mapper2SelectsBank : Obligations.Mapper2SelectsBank :=
  fun _ _ _ d hm hf => ⟨exec_m2WrPrg_inDomain d hm hf, exec_m2WrPrg_outOfDomain d hm hf⟩

/-- Settles O17: `chr_rom_pages` decides the buffer, and the first 8 KB page of it puts A at its own index. -/
theorem mapper2ReadsCharacterByte : Obligations.Mapper2ReadsCharacterByte := by
  intro s prg0 a hm hf
  have hram (h : s.block.chrRomPages = 0) : mapper2ChrBuffer s.block.chrRomPages = .chrRam := if_pos h
  have hrom (h : s.block.chrRomPages ≠ 0) : mapper2ChrBuffer s.block.chrRomPages = .chrRom := if_neg h
  exact ⟨fun ha hp => exec_m2RdChr_wholePages hm hf ha (hram hp),
    fun ha hp => exec_m2RdChr_wholePages hm hf ha (hrom hp),
    (characterDomainEndsAt2000 s a 0#8 (.m2RdChr a) hf (by simp) (by rw [hm]; rfl)).1,
    fun ha hp => exec_m2RdChr_malformed hm hf ha (hram hp),
    fun ha hp => exec_m2RdChr_malformed hm hf ha (hrom hp),
    fun ha hp => exec_m2RdChr_empty hm hf ha (hram hp),
    fun ha hp => exec_m2RdChr_empty hm hf ha (hrom hp)⟩

/-- Settles O18: without CHR ROM the write goes to the first 8 KB page of CHR_RAM or takes its resolution's fault,
with CHR ROM its target is the discard. -/
theorem mapper2WritesCharacterByte : Obligations.Mapper2WritesCharacterByte := by
  intro s prg0 a d hm hf
  refine ⟨fun ha hp hlen h0 => ?_, fun ha hp => exec_m2WrChr_discard d hm hf ha hp, ?_, fun ha hp hlen => ?_,
    fun ha hp h0 => ?_⟩
  · rw [exec_m2WrChr_ram d hm hf ha hp]
    exact conclude_write_ok d (pagerIndex_first hlen h0 ha)
  · exact (characterDomainEndsAt2000 s a d (.m2WrChr a d) hf (by simp) (by rw [hm]; rfl)).1
  · rw [exec_m2WrChr_ram d hm hf ha hp]
    exact conclude_write_error d (pagerIndex_malformed hlen)
  · rw [exec_m2WrChr_ram d hm hf ha hp]
    exact conclude_write_error d (pagerIndex_first_empty h0)

/-- The one bank-select write of a Mapper2 block (42_mapper_capability.md R81). -/
theorem m2WrPrg_of_bankSelect {i : Instr} (hop : i.operation = .wrPrg) (hv : i.availableOn .mapper2 = true) :
    ∃ a d, i = .m2WrPrg a d := by
  cases i <;> cases hop
  case m2WrPrg a d => exact ⟨a, d, rfl⟩
  case m3WrPrg a d => cases hv

/-- Settles O19: only WR_PRG replaces the register, one below 0x8000 faults and keeps it, and M3.WR_PRG is no
operation of this block. -/
theorem mapper2IsASingleRegisterAutomaton : Obligations.Mapper2IsASingleRegisterAutomaton := by
  refine ⟨fun cart b h => ?_, fun s prg0 a v hm hf ha => ⟨_, exec_m2WrPrg_inDomain v hm hf ha, rfl⟩,
    fun s t prg0 i hm h hlow => ?_⟩
  · cases h
    exact blockOf_mapper ..
  · obtain ⟨hf, hv⟩ := exec_next_live h
    by_cases hop : i.operation = .wrPrg
    · obtain ⟨a, v, rfl⟩ := m2WrPrg_of_bankSelect hop (by rw [hm] at hv; exact hv)
      cases h.symm.trans (exec_m2WrPrg_outOfDomain v hm hf (hlow a v rfl))
      rwa [takeFault_mapper]
    · rw [exec_keeps_mapper hop h, hm]

/-! MIRROR (43_mapper2_uxrom.md R96, 44_mapper3_cnrom.md R104). -/

theorem exec_mirror {s : State} {i : Instr} (hi : i ∈ [.m2Mirror, .m3Mirror]) (hf : s.block.fault = none)
    (hv : i.availableOn (mapperVariant s.block.mapper) = true) :
    exec i s = .next { s with response := some (.mirroring s.block.mirroring) } := by
  rw [exec_live hf hv]
  simp only [List.mem_cons, List.not_mem_nil, or_false] at hi
  obtain rfl | rfl := hi <;> rfl

/-- Settles O29: MIRROR reads the header, which a session keeps with the rest of what construction fixed. -/
theorem mirrorReturnsTheHeader : Obligations.MirrorReturnsTheHeader := by
  refine ⟨fun s i hi hf hv => exec_mirror hi hf hv, fun s t i session hi hv hrun ht => ?_⟩
  have hfix : t.block.fixture = s.block.fixture := runInstrs_keeps_fixture hrun
  have hvariant : mapperVariant t.block.mapper = mapperVariant s.block.mapper := congrArg Fixture.variant hfix
  have hheader : t.block.mirroring = s.block.mirroring := congrArg Fixture.mirroring hfix
  rw [exec_mirror hi ht (by rwa [hvariant]), hheader]

/-! The frames of the mappers' writes. -/

/-- A bank-select write takes its fault or replaces the register, and stores no byte (43_mapper2_uxrom.md R93,
44_mapper3_cnrom.md R101). -/
theorem bankSelect_block_cases {i : Instr} {s t : State} (hi : i.operation = .wrPrg) (h : exec i s = .next t) :
    (∃ f, t.block = { s.block with fault := f }) ∨ ∃ m, t.block = { s.block with mapper := m } := by
  obtain hb | ⟨-, m, -, hb⟩ | ⟨id, j, v, hst, -, -⟩ := exec_next_block_cases h
  · exact .inl hb
  · exact .inr ⟨m, hb⟩
  · obtain ⟨-, -, a, d, rfl⟩ := storedByte_of_mapperOperation (by simp [hi]) hst
    cases hi

/-- Settles O41: of the two shapes of the block after a bank select, the one that replaces the register has the fault
field it started with, which was empty. -/
theorem bankSelectChangesOnlyTheRegister : Obligations.BankSelectChangesOnlyTheRegister := by
  intro i s t hi h
  refine ⟨exec_next_pending h, ?_, exec_keeps_variant h, fun ht => ?_, fun id j => ?_⟩
  · obtain ⟨f, hb⟩ | ⟨m, hb⟩ := bankSelect_block_cases hi h <;> rw [hb]
  · obtain ⟨f, hb⟩ | ⟨m, hb⟩ := bankSelect_block_cases hi h
    · rw [hb]
    · exact absurd (by rw [hb]; exact (exec_next_live h).1) ht
  · obtain ⟨f, hb⟩ | ⟨m, hb⟩ := bankSelect_block_cases hi h
    · rw [hb, buffer_withFault]
    · rw [hb, buffer_withMapper]

/-- A WR_CHR that stores is Mapper2's without CHR ROM, at the index its address resolves to in CHR_RAM. -/
theorem storedByte_characterWrite {b : Block} {i : Instr} {a : Addr} {d : Byte} {id : BufferId} {j : Nat}
    (hi : i ∈ [.m2WrChr a d, .m3WrChr a d]) (h : storedByte b i = some (id, j)) :
    id = .chrRam ∧ i ≠ .m3WrChr a d ∧ b.chrRomPages = 0 ∧ pagerIndex b .chrRam mapper2ChrPage a = .ok j := by
  simp only [List.mem_cons, List.not_mem_nil, or_false] at hi
  obtain rfl | rfl := hi
  · obtain ⟨hid, hpages, -⟩ := storedByte_of_mapperOperation (by simp [Instr.operation]) h
    refine ⟨hid, by simp, hpages, ?_⟩
    simp only [storedByte, hpages, if_true] at h
    cases hk : pagerIndex b .chrRam mapper2ChrPage a with
    | error e => simp [hk, Except.toOption] at h
    | ok k => simp_all [Except.toOption]
  · cases h

/-- Settles O42: WR_CHR is no bank select and stores in CHR_RAM alone, at the index it resolves, and only where it is
neither discarded nor faulting. -/
theorem characterWriteChangesOneByte : Obligations.CharacterWriteChangesOneByte := by
  intro a d i s t hi h
  have hop : i.operation = .wrChr := by
    simp only [List.mem_cons, List.not_mem_nil, or_false] at hi
    obtain rfl | rfl := hi <;> rfl
  have hbyte := (bytesChangeOnlyWhereStored i s t h .chrRam).2
  refine ⟨exec_next_pending h, ?_, congrArg Fixture.chrRamLength (exec_keeps_fixture h),
    fun k hk j hj => hbyte j fun hst => ?_, fun hkept j => ?_⟩
  · obtain ⟨f, hb⟩ | ⟨hwr, -⟩ | ⟨id, j, v, hst, -, hb⟩ := exec_next_block_cases h
    · rw [hb]
    · cases hop.symm.trans hwr
    · obtain ⟨rfl, -⟩ := storedByte_characterWrite hi hst
      rw [hb]
      rfl
  · obtain ⟨-, -, -, hk'⟩ := storedByte_characterWrite hi hst
    exact hj (Except.ok.inj (hk'.symm.trans hk))
  · by_cases hst : storedByte s.block i = some (.chrRam, j)
    · obtain ⟨-, hm3, hpages, -⟩ := storedByte_characterWrite hi hst
      obtain h3 | hp | ht := hkept
      · exact absurd h3 hm3
      · exact absurd hpages hp
      · exact congrArg (Buffer.read · j) (exec_faulting_keeps_buffer h ht .chrRam)
    · exact hbyte j hst

end Sys2Proof.Machine

/-! Lemmas and proofs about 44_mapper3_cnrom.md: the automaton (R99), the program and character operations of Mapper3
(R100 to R103), and the laws of its unmasked register (R105, R107). -/

namespace Sys2Proof.Machine

open Claims

/-! The window decode (42_mapper_capability.md R86), as R100 uses it. -/

/-- In the low window Mapper3 reads the first bank. -/
theorem mapper3PrgPage_low {a : Addr} (ha : a.toNat ≤ 0xBFFF) : mapper3PrgPage a = .first .kb16 :=
  if_pos ((inLowWindow_iff a).mpr ha)

/-- In the high window Mapper3 reads the last bank. -/
theorem mapper3PrgPage_high {a : Addr} (ha : 0xC000 ≤ a.toNat) : mapper3PrgPage a = .last .kb16 :=
  if_neg fun hlow => by
    have := (inLowWindow_iff a).mp hlow
    omega

/-! Each Mapper3 operation at a live block. -/

section Mapper3
variable {s : State} {chr0 : BitVec 8} {a : Addr}

theorem exec_m3RdPrg_inDomain (hm : s.block.mapper = .mapper3 chr0) (hf : s.block.fault = none)
    (ha : 0x8000 ≤ a.toNat) :
    exec (.m3RdPrg a) s =
      conclude s .rdPrg (performTarget s.block (.pagerRead .prgRom (mapper3PrgPage a) (windowOffset a))) := by
  rw [exec_live hf (by rw [hm]; rfl)]
  simp only [effectOf, prgDomainFault_inside _ ha]
  rfl

theorem exec_m3WrPrg_inDomain (d : Byte) (hm : s.block.mapper = .mapper3 chr0) (hf : s.block.fault = none)
    (ha : 0x8000 ≤ a.toNat) :
    exec (.m3WrPrg a d) s = .next (completesWith s { s.block with mapper := .mapper3 d }) := by
  rw [exec_live hf (by rw [hm]; rfl)]
  simp only [effectOf, prgDomainFault_inside _ ha]
  rfl

theorem exec_m3WrPrg_outOfDomain (d : Byte) (hm : s.block.mapper = .mapper3 chr0) (hf : s.block.fault = none)
    (ha : a.toNat < 0x8000) : exec (.m3WrPrg a d) s = .next (takeFault s .wrPrg (.address .wrPrg a)) :=
  (programDomainStartsAt8000 s a d (.m3WrPrg a d) hf (by simp) (by rw [hm]; rfl)).1 ha

theorem exec_m3RdChr_inDomain (hm : s.block.mapper = .mapper3 chr0) (hf : s.block.fault = none)
    (ha : a.toNat < 0x2000) :
    exec (.m3RdChr a) s =
      conclude s .rdChr (performTarget s.block (.pagerRead .chrRom (mapper3ChrPage chr0) a)) := by
  rw [exec_live hf (by rw [hm]; rfl)]
  simp only [effectOf, hm, chrDomainFault_inside _ ha]
  rfl

/-- A bank that CHR_ROM does not have fails the Pager's bank check (44_mapper3_cnrom.md R102). -/
theorem exec_m3RdChr_noBank (hm : s.block.mapper = .mapper3 chr0) (hf : s.block.fault = none)
    (ha : a.toNat < 0x2000) (hlen : s.block.chrRom.length % 8192 = 0)
    (hbank : s.block.chrRom.length / 8192 ≤ chr0.toNat) :
    exec (.m3RdChr a) s =
      .next (takeFault s .rdChr (.pageBounds .chrRom (.number chr0.toNat .kb8) a .bankRange)) := by
  rw [exec_m3RdChr_inDomain hm hf ha]
  exact conclude_read_error (pagerIndex_bankRange_of_selectsBank hlen fun n hn => hn ▸ hbank)

theorem exec_m3WrChr_inDomain (d : Byte) (hm : s.block.mapper = .mapper3 chr0) (hf : s.block.fault = none)
    (ha : a.toNat < 0x2000) : exec (.m3WrChr a d) s = .next (completesWith s s.block) := by
  rw [exec_live hf (by rw [hm]; rfl)]
  simp only [effectOf, chrDomainFault_inside _ ha]
  rfl

end Mapper3

/-- Settles O22: the low window resolves in the first bank, the high one in the last, and each takes the fault of its
resolution. -/
theorem mapper3ReadsProgramByte : Obligations.Mapper3ReadsProgramByte := by
  intro s chr0 a hm hf
  refine ⟨fun ha ha' hlen h0 => ?_, fun ha hlen h0 => ?_, fun ha => ?_, fun ha hlen => ?_, fun ha ha' h0 => ?_,
    fun ha h0 => ?_⟩
  · rw [exec_m3RdPrg_inDomain hm hf ha, mapper3PrgPage_low ha', ← windowOffset_low ha ha']
    exact conclude_read_ok (pagerIndex_first hlen h0 (windowOffset_lt ha))
  · have ha8 : 0x8000 ≤ a.toNat := by omega
    rw [exec_m3RdPrg_inDomain hm hf ha8, mapper3PrgPage_high ha, ← windowOffset_high ha]
    exact conclude_read_ok (pagerIndex_last hlen h0 (windowOffset_lt ha8))
  · exact (programDomainStartsAt8000 s a 0#8 (.m3RdPrg a) hf (by simp) (by rw [hm]; rfl)).1 ha
  · have hlen' : (s.block.buffer .prgRom).length % sizeBytes (pageSize (mapper3PrgPage a)) ≠ 0 := by
      rwa [pageSize_mapper3PrgPage]
    rw [exec_m3RdPrg_inDomain hm hf ha, conclude_read_error (pagerIndex_malformed hlen'), pageSize_mapper3PrgPage]
    rfl
  · rw [exec_m3RdPrg_inDomain hm hf ha, mapper3PrgPage_low ha', ← windowOffset_low_eq ha ha']
    exact conclude_read_error (pagerIndex_first_empty h0)
  · rw [exec_m3RdPrg_inDomain hm hf (by omega), mapper3PrgPage_high ha, ← windowOffset_high_eq ha]
    exact conclude_read_error (pagerIndex_last_empty h0)

/-- Settles O23: in the domain the target is the register write of the whole data byte, which consults no Pager; below
it the check faults. -/
theorem mapper3SelectsBank : Obligations.Mapper3SelectsBank :=
  fun _ _ _ d hm hf => ⟨exec_m3WrPrg_inDomain d hm hf, exec_m3WrPrg_outOfDomain d hm hf⟩

/-- Settles O24: the selected bank's number is the page that resolves, so it delivers at its index or takes the fault
of the resolution. -/
theorem mapper3ReadsCharacterByte : Obligations.Mapper3ReadsCharacterByte := by
  intro s chr0 a hm hf
  refine ⟨fun ha hlen hbank => exec_m3RdChr_bank hf hm ha (pagerIndex_mapper3ChrPage ha hlen hbank), ?_,
    fun ha hlen => ?_, fun ha hlen hbank => exec_m3RdChr_noBank hm hf ha hlen hbank⟩
  · exact (characterDomainEndsAt2000 s a 0#8 (.m3RdChr a) hf (by simp) (by rw [hm]; rfl)).1
  · rw [exec_m3RdChr_inDomain hm hf ha]
    exact conclude_read_error (pagerIndex_malformed hlen)

/-- Settles O25: in the domain the target is the discard, which consults neither the register nor a buffer; from 0x2000
on the check faults before it. -/
theorem mapper3DiscardsCharacterWrites : Obligations.Mapper3DiscardsCharacterWrites :=
  fun s _ a d hm hf => ⟨exec_m3WrChr_inDomain d hm hf,
    (characterDomainEndsAt2000 s a d (.m3WrChr a d) hf (by simp) (by rw [hm]; rfl)).1⟩

/-- The one bank-select write of a Mapper3 block (42_mapper_capability.md R81). -/
theorem m3WrPrg_of_bankSelect {i : Instr} (hop : i.operation = .wrPrg) (hv : i.availableOn .mapper3 = true) :
    ∃ a d, i = .m3WrPrg a d := by
  cases i <;> cases hop
  case m2WrPrg a d => cases hv
  case m3WrPrg a d => exact ⟨a, d, rfl⟩

/-- Settles O26: only WR_PRG replaces the register, one below 0x8000 faults and keeps it, and M2.WR_PRG is no
operation of this block. -/
theorem mapper3IsASingleRegisterAutomaton : Obligations.Mapper3IsASingleRegisterAutomaton := by
  refine ⟨fun cart b h => ?_, fun s chr0 a v hm hf ha => ⟨_, exec_m3WrPrg_inDomain v hm hf ha, rfl⟩,
    fun s t chr0 i hm h hlow => ?_⟩
  · cases h
    exact blockOf_mapper ..
  · obtain ⟨hf, hv⟩ := exec_next_live h
    by_cases hop : i.operation = .wrPrg
    · obtain ⟨a, v, rfl⟩ := m3WrPrg_of_bankSelect hop (by rwa [hm] at hv)
      cases h.symm.trans (exec_m3WrPrg_outOfDomain v hm hf (hlow a v rfl))
      rwa [takeFault_mapper]
    · rw [exec_keeps_mapper hop h, hm]

/-- Settles O27: the bank select stores without a look at CHR_ROM, and leaves CHR_ROM and the empty fault field as they
were; so the read resolves in whichever bank was stored last. -/
theorem unmaskedRegisterFaultsAtTheRead : Obligations.UnmaskedRegisterFaultsAtTheRead := by
  intro s chr0 a a' d d' e hm hf ha ha' hlen hbank
  refine ⟨_, exec_m3WrPrg_inDomain d hm hf ha, hf, rfl, ?_, ?_, ?_⟩
  · exact ⟨_, _, exec_m3RdChr_noBank rfl hf ha' hlen hbank, rfl, rfl⟩
  · exact ⟨_, exec_m3WrChr_inDomain e rfl hf ha', rfl⟩
  · refine ⟨_, exec_m3WrPrg_inDomain d' rfl hf ha, hf, fun hbank' => ?_⟩
    exact exec_m3RdChr_bank hf rfl ha' (pagerIndex_mapper3ChrPage ha' hlen hbank')

/-! The program space under two values of the register (44_mapper3_cnrom.md R107). -/

/-- Two next states of an instruction whose effect gives the same answer have the same fault. -/
theorem exec_fault_congr {j : Instr} {s t u u' : State} (h : exec j s = .next u) (h' : exec j t = .next u')
    (hans : answerOf t.block j = answerOf s.block j) : u'.block.fault = u.block.fault := by
  obtain ⟨hf, hv, hcases⟩ := exec_next_cases h
  obtain ⟨hf', hv', hcases'⟩ := exec_next_cases h'
  unfold answerOf at hans
  obtain ⟨b, resp, heff, rfl⟩ | ⟨e, heff, rfl⟩ := hcases <;>
    obtain ⟨b', resp', heff', rfl⟩ | ⟨e', heff', rfl⟩ := hcases' <;> rw [heff, heff'] at hans
  · calc b'.fault
      _ = none := (effectOf_ok_fault hv' heff').trans hf'
      _ = b.fault := ((effectOf_ok_fault hv heff).trans hf).symm
  · cases hans
  · cases hans
  · cases hans
    rfl

/-- M3.RD_PRG answers without the register (44_mapper3_cnrom.md R100). -/
theorem answerOf_m3RdPrg_withMapper (b : Block) (m : Mapper) (a : Addr) :
    answerOf { b with mapper := m } (.m3RdPrg a) = answerOf b (.m3RdPrg a) :=
  driveTarget_read_answer_congr (buffer_withMapper b m _) ..

/-- Settles O28: both blocks are live and of one variant, and M3.RD_PRG answers them alike. -/
theorem mapper3ProgramReadsIgnoreTheRegister : Obligations.Mapper3ProgramReadsIgnoreTheRegister := by
  intro s t chr0 chr0' a hm h
  have hans := answerOf_m3RdPrg_withMapper s.block (.mapper3 chr0') a
  obtain ⟨t', h', hresp⟩ := exec_response_congr (t := { s with block := { s.block with mapper := .mapper3 chr0' } })
    h (exec_next_live h).1 (congrArg mapperVariant hm).symm hans
  exact ⟨t', h', hresp, exec_fault_congr h h' hans⟩

end Sys2Proof.Machine

/-! Lemmas and proofs about 60_exceptions.md: which operation raises which fault (R108), what a fault leaves behind
(R114), and the faulted block, which has no step (R116). -/

namespace Sys2Proof.Machine

/-! What raises a fault. -/

/-- A target faults in its domain check or in the resolution of its access (42_mapper_capability.md R85). -/
theorem driveTarget_error_resolution {b : Block} {f : Option FaultInfo} {g : Target} {e : FaultInfo}
    (h : driveTarget b f g = .error e) : f = some e ∨ ∃ id p o, pagerIndex b id p o = .error e := by
  obtain hf | ⟨-, hp⟩ := driveTarget_error_cases h
  · exact .inl hf
  · obtain ⟨id, p, o, -, he⟩ | ⟨id, p, o, v, -, he⟩ := performTarget_error_cases hp <;> exact .inr ⟨id, p, o, he⟩

/-- A target that consults no Pager raises nothing of its own (42_mapper_capability.md R85). -/
theorem driveTarget_error_of_no_access {b : Block} {f : Option FaultInfo} {g : Target} {e : FaultInfo}
    (hr : ∀ id p o, g ≠ .pagerRead id p o) (hw : ∀ id p o v, g ≠ .pagerWrite id p o v)
    (h : driveTarget b f g = .error e) : f = some e := by
  obtain hf | ⟨-, hp⟩ := driveTarget_error_cases h
  · exact hf
  · obtain ⟨id, p, o, hg, -⟩ | ⟨id, p, o, v, hg, -⟩ := performTarget_error_cases hp
    · exact absurd hg (hr id p o)
    · exact absurd hg (hw id p o v)

/-- The fault is one of a resolution, in an operation that makes a Pager access: a read, PG_WRITE, or WR_CHR where
it is a RAM write, under Mapper2 with no CHR ROM (60_exceptions.md R108). -/
def FaultsInAccess (b : Block) (i : Instr) (e : FaultInfo) : Prop :=
  i.operation ∈ [.rdPrg, .rdChr, .wrChr, .pgRead, .pgWrite] ∧
    (i.operation = .wrChr → mapperVariant b.mapper = .mapper2 ∧ b.chrRomPages = 0) ∧
    ∃ id p o, pagerIndex b id p o = .error e

/-- An operation other than WR_CHR that makes a Pager access faults in its domain check or in the access. -/
theorem driveTarget_error_of_access {b : Block} {i : Instr} {g : Target} {e : FaultInfo}
    (hi : i.operation ∈ [.rdPrg, .rdChr, .pgRead, .pgWrite]) (h : driveTarget b (domainFaultOf i) g = .error e) :
    domainFaultOf i = some e ∨ FaultsInAccess b i e := by
  refine (driveTarget_error_resolution h).imp_right fun he => ⟨?_, fun hw => ?_, he⟩
  · simp only [List.mem_cons, List.not_mem_nil, or_false] at hi ⊢
    tauto
  · simp [hw] at hi

/-- A fault is raised by the domain check, by the resolution of an access, or by PG_COUNT's division. -/
theorem effectOf_error_cases {b : Block} {i : Instr} {e : FaultInfo}
    (hv : i.availableOn (mapperVariant b.mapper) = true) (h : effectOf b i = .error e) :
    (domainFaultOf i = some e ∨ FaultsInAccess b i e) ∨
      (i.operation = .pgCount ∧ ∃ id size, pageCount b id size = .error e) := by
  cases i with
  | m2RdPrg a =>
    simp only [effectOf] at h
    split at h
    · exact .inl (driveTarget_error_of_access (by simp [Instr.operation]) h)
    · cases h
  | m3RdChr a =>
    simp only [effectOf] at h
    split at h
    · cases h
    · exact .inl (driveTarget_error_of_access (by simp [Instr.operation]) h)
  | m2RdChr a | m3RdPrg a =>
    simp only [effectOf] at h
    exact .inl (driveTarget_error_of_access (by simp [Instr.operation]) h)
  | pgRead id p o =>
    exact .inl (driveTarget_error_of_access (g := .pagerRead id p o) (by simp [Instr.operation]) h)
  | pgWrite id p o v =>
    exact .inl (driveTarget_error_of_access (g := .pagerWrite id p o v) (by simp [Instr.operation]) h)
  | m2WrPrg a d | m3WrPrg a d | m3WrChr a d | m2Mirror | m3Mirror =>
    simp only [effectOf] at h
    exact .inl (.inl (driveTarget_error_of_no_access (by simp) (by simp) h))
  | m2WrChr a d =>
    simp only [effectOf] at h
    split at h
    · rename_i hpages
      exact .inl ((driveTarget_error_resolution h).imp_right fun he =>
        ⟨by simp [Instr.operation], fun _ => ⟨of_decide_eq_true hv, hpages⟩, he⟩)
    · exact .inl (.inl (driveTarget_error_of_no_access (by simp) (by simp) h))
  | pgCount id size =>
    simp only [effectOf, performCount] at h
    split at h
    · rename_i e' hc
      cases h
      exact .inr ⟨rfl, id, size, hc⟩
    · cases h

/-! The kinds of the three sources. -/

theorem domainFaultOf_some_operation {i : Instr} {e : FaultInfo} (h : domainFaultOf i = some e) :
    i.operation ∈ [.rdPrg, .wrPrg, .rdChr, .wrChr] := by
  cases i with
  | m2RdPrg a | m2WrPrg a d | m2RdChr a | m2WrChr a d | m3RdPrg a | m3WrPrg a d | m3RdChr a | m3WrChr a d =>
    simp [Instr.operation]
  | m2Mirror | m3Mirror | pgRead id p o | pgWrite id p o v | pgCount id size => cases h

theorem domainFaultOf_some_kind {i : Instr} {e : FaultInfo} (h : domainFaultOf i = some e) :
    faultKind e = .addressFault := by
  obtain ⟨a, rfl⟩ := domainFaultOf_some h
  rfl

theorem pagerIndex_error_kind_ne_address {b : Block} {id : BufferId} {p : Page} {o : Addr} {e : FaultInfo}
    (h : pagerIndex b id p o = .error e) : faultKind e ≠ .addressFault := by
  obtain ⟨why, rfl⟩ | ⟨-, rfl⟩ := pagerIndex_error_cases h <;> simp [faultKind]

theorem pageCount_error_kind {b : Block} {id : BufferId} {size : PageSizeKb} {e : FaultInfo}
    (h : pageCount b id size = .error e) : faultKind e = .malformedImageFault := by
  by_cases hm : (b.buffer id).length % sizeBytes size = 0
  · rw [pageCount_exact hm] at h
    cases h
  · rw [pageCount_malformed hm] at h
    cases h
    rfl

/-! What a fault leaves behind, and where there is none. -/

/-- A next state with a record is the state before with the fault taken. -/
theorem exec_next_takeFault {i : Instr} {s t : State} {rec : FaultRecord} (h : exec i s = .next t)
    (hrec : t.block.fault = some rec) : ∃ e, rec = ⟨i.operation, e⟩ ∧ t = takeFault s i.operation e := by
  obtain ⟨hf, hv⟩ := exec_next_live h
  have heff := exec_next_fault h hrec
  rw [exec_live hf hv, heff, conclude_error] at h
  cases h
  rw [takeFault_fault] at hrec
  exact ⟨rec.info, (Option.some.inj hrec).symm, rfl⟩

theorem construct_ok_fault {m : Nat} {cart : CartridgeData} {b : Block} (h : construct m cart = .ok b) :
    b.fault = none := by
  unfold construct at h
  split_ifs at h <;> cases h <;> exact blockOf_fault ..

/-- Settles O9: such a state is `takeFault` of the one before. -/
theorem faultsArePrecise : Obligations.FaultsArePrecise := by
  intro i s t rec h hrec
  obtain ⟨e, rfl, rfl⟩ := exec_next_takeFault h hrec
  exact ⟨rfl, takeFault_pending ..⟩

/-- Settles O10: a next state comes from a live block, by a step and by an instruction alike, and `construct` gives
one. -/
theorem faultedBlockHasNoStep : Obligations.FaultedBlockHasNoStep := by
  refine ⟨fun s rec hf => ⟨fun t h => ?_, fun i t h => ?_⟩, fun m cart b h => construct_ok_fault h⟩
  · cases hf.symm.trans (step_next_cases h).1
  · cases hf.symm.trans (exec_next_live h).1

/-- Settles O11: the fault comes from the domain check, an access or PG_COUNT's division; each has its operations, and
its kinds rule out the others' clauses. -/
theorem faultKindsAndTheirRaisers : Obligations.FaultKindsAndTheirRaisers := by
  refine ⟨rfl, rfl, rfl, fun i s t rec h hrec => ?_⟩
  unfold recordKind
  obtain (hd | ⟨hop, hwr, id, p, o, he⟩) | ⟨hop, id, size, hc⟩ :=
    effectOf_error_cases (exec_next_live h).2 (exec_next_fault h hrec)
  · have hk := domainFaultOf_some_kind hd
    exact ⟨fun _ => domainFaultOf_some_operation hd, by simp [hk], by simp [hk], fun _ hne => absurd hk hne⟩
  · have hk := pagerIndex_error_kind_ne_address he
    exact ⟨fun haddr => absurd haddr hk, fun _ => hop, fun _ => List.mem_append_left [Operation.pgCount] hop,
      fun hop' _ => hwr hop'⟩
  · have hk := pageCount_error_kind hc
    simp [hk, hop]

end Sys2Proof.Machine

/-! Lemmas and proofs about 70_reset_and_hazards.md: construction (R126), and the safe session (R129, R130), in which
every access resolves and every step leaves the block safe. -/

namespace Sys2Proof.Machine

/-! Construction. -/

theorem construct_unsupported {m : Nat} (cart : CartridgeData) (h2 : m ≠ 2) (h3 : m ≠ 3) :
    construct m cart = .error (.unsupportedMapper m) := by
  rw [construct, if_neg h2, if_neg h3]

/-- Settles O48: each of the two mapper ids takes the cartridge through `blockOf`, and any other meets neither test. -/
theorem constructionTakesTheCartridge : Obligations.ConstructionTakesTheCartridge :=
  fun cart => ⟨rfl, rfl, fun _ => construct_unsupported cart⟩

/-! What a safe block says of its buffers and its register (70_reset_and_hazards.md R129, R130). -/

theorem wholePages_iff {x : Buffer} {bytes : Nat} :
    x.wholePages bytes = true ↔ x.length ≠ 0 ∧ x.length % bytes = 0 := by
  simp [Buffer.wholePages]

theorem safe_iff {b : Block} :
    b.safe = true ↔ b.fault = none ∧ b.wellFormedCart = true ∧ b.bankExists b.mapper = true := by
  simp [Block.safe, and_assoc]

/-- Under Mapper2 the character buffer is the one `mapper2ChrBuffer` selects (43_mapper2_uxrom.md R91). -/
theorem wellFormedCart_mapper2_iff {b : Block} {prg0 : BitVec 4} (hm : b.mapper = .mapper2 prg0) :
    b.wellFormedCart = true ↔ (b.buffer .prgRom).wholePages 16384 = true ∧
      (b.buffer (mapper2ChrBuffer b.chrRomPages)).wholePages 8192 = true := by
  by_cases hpages : b.chrRomPages = 0 <;>
    simp [Block.wellFormedCart, hm, hpages, mapper2ChrBuffer, Block.buffer]

theorem wellFormedCart_mapper3_iff {b : Block} {chr0 : BitVec 8} (hm : b.mapper = .mapper3 chr0) :
    b.wellFormedCart = true ↔ (b.buffer .prgRom).wholePages 16384 = true ∧
      (b.buffer .chrRom).wholePages 8192 = true := by
  simp [Block.wellFormedCart, hm, Block.buffer]

/-! Both premises read only what construction fixed. -/

theorem bankExists_of_fixture {b b' : Block} (h : b'.fixture = b.fixture) (m : Mapper) :
    b'.bankExists m = b.bankExists m := by
  have hprg : b'.prgRom.length = b.prgRom.length := congrArg Fixture.prgRomLength h
  have hchr : b'.chrRom.length = b.chrRom.length := congrArg Fixture.chrRomLength h
  cases m <;> simp only [Block.bankExists, hprg, hchr]

theorem wellFormedCart_of_fixture {b b' : Block} (h : b'.fixture = b.fixture) :
    b'.wellFormedCart = b.wellFormedCart := by
  have hvariant : mapperVariant b'.mapper = mapperVariant b.mapper := congrArg Fixture.variant h
  have hpages : b'.chrRomPages = b.chrRomPages := congrArg Fixture.chrRomPages h
  have hprg : b'.prgRom.length = b.prgRom.length := congrArg Fixture.prgRomLength h
  have hrom : b'.chrRom.length = b.chrRom.length := congrArg Fixture.chrRomLength h
  have hram : b'.chrRam.length = b.chrRam.length := congrArg Fixture.chrRamLength h
  simp only [Block.wellFormedCart, Buffer.wholePages, hpages, hprg, hrom, hram]
  generalize b.mapper = m at hvariant ⊢
  generalize b'.mapper = m' at hvariant ⊢
  cases m' with
  | mapper2 prg0' =>
    cases m with
    | mapper2 prg0 => rfl
    | mapper3 chr0 => cases hvariant
  | mapper3 chr0' =>
    cases m with
    | mapper2 prg0 => cases hvariant
    | mapper3 chr0 => rfl

/-! A completed operation that keeps to the map leaves a safe block. -/

/-- The register names a bank that exists: the one it named before, or the one a bank select inside the map names. -/
theorem exec_keeps_bankExists {i : Instr} {s t : State} (h : exec i s = .next t) (ht : t.block.fault = none)
    (hbank : s.block.bankExists s.block.mapper = true) (hk : keepsToMap s.block i = true) :
    s.block.bankExists t.block.mapper = true := by
  cases i with
  | m2WrPrg a d =>
    rw [exec_m2WrPrg_completed h ht]
    exact (Bool.and_eq_true_iff.mp hk).2
  | m3WrPrg a d =>
    rw [exec_m3WrPrg_completed h ht]
    exact (Bool.and_eq_true_iff.mp hk).2
  | m2RdPrg a | m2RdChr a | m2WrChr a d | m2Mirror | m3RdPrg a | m3RdChr a | m3WrChr a d | m3Mirror | pgRead id p o
  | pgWrite id p o v | pgCount id size => rwa [exec_keeps_mapper (by simp [Instr.operation]) h]

theorem exec_keeps_safe {i : Instr} {s t : State} (h : exec i s = .next t) (ht : t.block.fault = none)
    (hsafe : s.block.safe = true) (hk : keepsToMap s.block i = true) : t.block.safe = true := by
  obtain ⟨-, hcart, hbank⟩ := safe_iff.mp hsafe
  have hfix := exec_keeps_fixture h
  refine safe_iff.mpr ⟨ht, ?_, ?_⟩
  · rwa [wellFormedCart_of_fixture hfix]
  · rw [bankExists_of_fixture hfix]
    exact exec_keeps_bankExists h ht hbank hk

/-! An operation that keeps to the map completes: its domain check passes and its access resolves. -/

theorem domainFaultOf_of_keepsToMap {b : Block} {i : Instr} (hk : keepsToMap b i = true) : domainFaultOf i = none := by
  cases i with
  | m2RdPrg a | m3RdPrg a => exact prgDomainFault_inside _ (of_decide_eq_true hk)
  | m2WrPrg a d | m3WrPrg a d => exact prgDomainFault_inside _ (of_decide_eq_true (Bool.and_eq_true_iff.mp hk).1)
  | m2RdChr a | m2WrChr a d | m3RdChr a | m3WrChr a d => exact chrDomainFault_inside _ (of_decide_eq_true hk)
  | m2Mirror | m3Mirror | pgRead id p o | pgWrite id p o v | pgCount id size => rfl

/-- Where the target is a Pager access, the access has an index. -/
def Target.Resolves (b : Block) : Target → Prop
  | .pagerRead id p o => ∃ k, pagerIndex b id p o = .ok k
  | .pagerWrite id p o _ => ∃ k, pagerIndex b id p o = .ok k
  | .regWrite _ => True
  | .discard => True
  | .headerRead => True

theorem performTarget_of_resolves {b : Block} {g : Target} (h : g.Resolves b) :
    ∃ b' resp, performTarget b g = .ok (b', resp) := by
  cases hg : performTarget b g with
  | ok x => exact ⟨x.1, x.2, rfl⟩
  | error e =>
    obtain ⟨id, p, o, rfl, he⟩ | ⟨id, p, o, v, rfl, he⟩ := performTarget_error_cases hg <;>
      obtain ⟨k, hk⟩ := h <;> cases hk.symm.trans he

section Resolutions
variable {b : Block} {a : Addr}

theorem mapper2PrgPage_resolves {prg0 : BitVec 4} (hpages : (b.buffer .prgRom).wholePages 16384 = true)
    (hbank : b.bankExists (.mapper2 prg0) = true) (ha : 0x8000 ≤ a.toNat) :
    ∃ k, pagerIndex b .prgRom (mapper2PrgPage prg0 a) (windowOffset a) = .ok k := by
  obtain ⟨h0, hlen⟩ := wholePages_iff.mp hpages
  by_cases hlow : a.toNat ≤ 0xBFFF
  · rw [mapper2PrgPage_low prg0 hlow]
    exact ⟨_, pagerIndex_inRange hlen (canonicalBank_number ..) (of_decide_eq_true hbank) (windowOffset_lt ha)⟩
  · rw [mapper2PrgPage_high prg0 (Nat.not_le.mp hlow)]
    exact ⟨_, pagerIndex_last hlen h0 (windowOffset_lt ha)⟩

theorem mapper3PrgPage_resolves (hpages : (b.buffer .prgRom).wholePages 16384 = true) (ha : 0x8000 ≤ a.toNat) :
    ∃ k, pagerIndex b .prgRom (mapper3PrgPage a) (windowOffset a) = .ok k := by
  obtain ⟨h0, hlen⟩ := wholePages_iff.mp hpages
  by_cases hlow : a.toNat ≤ 0xBFFF
  · rw [mapper3PrgPage_low hlow]
    exact ⟨_, pagerIndex_first hlen h0 (windowOffset_lt ha)⟩
  · rw [mapper3PrgPage_high (Nat.not_le.mp hlow)]
    exact ⟨_, pagerIndex_last hlen h0 (windowOffset_lt ha)⟩

theorem mapper2ChrPage_resolves {id : BufferId} (hpages : (b.buffer id).wholePages 8192 = true)
    (ha : a.toNat < 0x2000) : ∃ k, pagerIndex b id mapper2ChrPage a = .ok k := by
  obtain ⟨h0, hlen⟩ := wholePages_iff.mp hpages
  exact ⟨_, pagerIndex_first hlen h0 ha⟩

theorem mapper3ChrPage_resolves {chr0 : BitVec 8} (hpages : (b.buffer .chrRom).wholePages 8192 = true)
    (hbank : b.bankExists (.mapper3 chr0) = true) (ha : a.toNat < 0x2000) :
    ∃ k, pagerIndex b .chrRom (mapper3ChrPage chr0) a = .ok k :=
  ⟨_, pagerIndex_mapper3ChrPage ha (wholePages_iff.mp hpages).2 (of_decide_eq_true hbank)⟩

end Resolutions

section InMap
variable {b : Block} {i : Instr}

/-- Each Mapper2 operation inside the map is its domain check and then a target that resolves. -/
theorem effectOf_mapper2_resolves {prg0 : BitVec 4} (hm : b.mapper = .mapper2 prg0) (hcart : b.wellFormedCart = true)
    (hbank : b.bankExists (.mapper2 prg0) = true) (hv : i.availableOn .mapper2 = true) (hk : keepsToMap b i = true) :
    ∃ g, effectOf b i = driveTarget b (domainFaultOf i) g ∧ g.Resolves b := by
  obtain ⟨hprg, hchr⟩ := (wellFormedCart_mapper2_iff hm).mp hcart
  cases i with
  | m2RdPrg a =>
    refine ⟨.pagerRead .prgRom (mapper2PrgPage prg0 a) (windowOffset a), ?_, ?_⟩
    · simp only [effectOf, hm]; rfl
    · exact mapper2PrgPage_resolves hprg hbank (of_decide_eq_true hk)
  | m2RdChr a => exact ⟨_, rfl, mapper2ChrPage_resolves hchr (of_decide_eq_true hk)⟩
  | m2WrChr a d =>
    refine ⟨_, rfl, ?_⟩
    split_ifs with hpages
    · rw [hpages] at hchr
      exact mapper2ChrPage_resolves hchr (of_decide_eq_true hk)
    · trivial
  | m2WrPrg a d => exact ⟨_, rfl, trivial⟩
  | m2Mirror => exact ⟨.headerRead, rfl, trivial⟩
  | m3RdPrg a | m3WrPrg a d | m3RdChr a | m3WrChr a d | m3Mirror => cases hv
  | pgRead id p o | pgWrite id p o v | pgCount id size => cases hk

/-- Each Mapper3 operation inside the map is its domain check and then a target that resolves. -/
theorem effectOf_mapper3_resolves {chr0 : BitVec 8} (hm : b.mapper = .mapper3 chr0) (hcart : b.wellFormedCart = true)
    (hbank : b.bankExists (.mapper3 chr0) = true) (hv : i.availableOn .mapper3 = true) (hk : keepsToMap b i = true) :
    ∃ g, effectOf b i = driveTarget b (domainFaultOf i) g ∧ g.Resolves b := by
  obtain ⟨hprg, hchr⟩ := (wellFormedCart_mapper3_iff hm).mp hcart
  cases i with
  | m3RdPrg a => exact ⟨_, rfl, mapper3PrgPage_resolves hprg (of_decide_eq_true hk)⟩
  | m3RdChr a =>
    refine ⟨.pagerRead .chrRom (mapper3ChrPage chr0) a, ?_, ?_⟩
    · simp only [effectOf, hm]; rfl
    · exact mapper3ChrPage_resolves hchr hbank (of_decide_eq_true hk)
  | m3WrPrg a d | m3WrChr a d => exact ⟨_, rfl, trivial⟩
  | m3Mirror => exact ⟨.headerRead, rfl, trivial⟩
  | m2RdPrg a | m2WrPrg a d | m2RdChr a | m2WrChr a d | m2Mirror => cases hv
  | pgRead id p o | pgWrite id p o v | pgCount id size => cases hk

theorem effectOf_ok_of_safe (hsafe : b.safe = true) (hv : i.availableOn (mapperVariant b.mapper) = true)
    (hk : keepsToMap b i = true) : ∃ b' resp, effectOf b i = .ok (b', resp) := by
  obtain ⟨-, hcart, hbank⟩ := safe_iff.mp hsafe
  have htarget : ∃ g, effectOf b i = driveTarget b (domainFaultOf i) g ∧ g.Resolves b := by
    cases hm : b.mapper with
    | mapper2 prg0 =>
      rw [hm] at hbank hv
      exact effectOf_mapper2_resolves hm hcart hbank hv hk
    | mapper3 chr0 =>
      rw [hm] at hbank hv
      exact effectOf_mapper3_resolves hm hcart hbank hv hk
  obtain ⟨g, heff, hg⟩ := htarget
  rw [heff, domainFaultOf_of_keepsToMap hk]
  exact performTarget_of_resolves hg

end InMap

/-- An operation of the block's own that keeps to the map completes on a safe block and leaves it safe
(70_reset_and_hazards.md R130). -/
theorem exec_of_safe {i : Instr} {s : State} (hsafe : s.block.safe = true)
    (hv : i.availableOn (mapperVariant s.block.mapper) = true) (hk : keepsToMap s.block i = true) :
    ∃ t, exec i s = .next t ∧ t.block.safe = true ∧
      ∃ resp, t.response = some resp ∧ ∀ rec, resp ≠ .fault rec := by
  have hf : s.block.fault = none := (safe_iff.mp hsafe).1
  obtain ⟨b, resp, heff⟩ := effectOf_ok_of_safe hsafe hv hk
  have hexec : exec i s = .next { s with block := b, response := some resp } := by
    rw [exec_live hf hv, heff, conclude_ok]
  have hlive : b.fault = none := (effectOf_ok_fault hv heff).trans hf
  exact ⟨_, hexec, exec_keeps_safe hexec hlive hsafe hk, resp, rfl, effectOf_ok_response heff⟩

/-- Settles O50: the decoded operation is the block's own, passes its domain check and resolves its access, so its
effect completes; what construction fixed is kept and the register names a bank, so the block is safe again. -/
theorem safeSessionNeverFaults : Obligations.SafeSessionNeverFaults := by
  intro s r rest i hsafe hp hd hk
  obtain ⟨t, hexec, hsafe', hresp⟩ :=
    exec_of_safe (s := { s with pending := rest }) hsafe (decodeRequest_availableOn hd) hk
  exact ⟨t, (step_of_decode_ok (safe_iff.mp hsafe).1 hp hd).trans hexec, hsafe', exec_next_pending hexec, hresp⟩

end Sys2Proof.Machine

/-! Lemmas and proofs about 30_encoding.md: the round trip between instructions and words (R53 to R61). -/

namespace Sys2Proof

/-! Decoding a word that was put together from its fields. -/

theorem decodeMapperWord_wordOf (v : Variant) (op : BitVec 3) (a : Addr) (d : Byte) :
    decodeMapperWord v (mapperWordOf op a d) = decodeMapperOp v op a d := by
  simp [decodeMapperWord]

theorem decodePagerWord_wordOf {op : BitVec 2} (hop : op ≠ 0b11#2) (k s : BitVec 2) (b : BufferId) (n : BitVec 32)
    (o : Addr) (d : Byte) :
    decodePagerWord (pagerWordOf op k s (bufferCode b) n o d) = .ok (pagerInstr op b k (decodeSize s) n o d) := by
  simp [decodePagerWord, hop]

section PagerCommands
variable (b : BufferId) (k : BitVec 2) (s : PageSizeKb) (n : BitVec 32) (o : Addr) (d : Byte)

theorem pagerInstr_read : pagerInstr 0b00#2 b k s n o d = .pgRead b (decodePage k s n) o := rfl

theorem pagerInstr_write : pagerInstr 0b01#2 b k s n o d = .pgWrite b (decodePage k s n) o d := rfl

theorem pagerInstr_count : pagerInstr 0b10#2 b k s n o d = .pgCount b s := rfl

end PagerCommands

/-- The variant chooses among the rows that share an MT32 word, the index field holds the selector's index. -/
theorem decodeRequest_encode {v : Variant} {i : Instr} (hw : i.wellFormed = true) (hv : i.availableOn v = true) :
    decodeRequest v (encode i) = .ok i := by
  cases i with
  | m2RdPrg | m2WrPrg | m2RdChr | m2WrChr | m2Mirror =>
    obtain rfl : v = .mapper2 := of_decide_eq_true hv
    exact decodeMapperWord_wordOf ..
  | m3RdPrg | m3WrPrg | m3RdChr | m3WrChr | m3Mirror =>
    obtain rfl : v = .mapper3 := of_decide_eq_true hv
    exact decodeMapperWord_wordOf ..
  | pgRead b p o =>
    rw [encode, decodeRequest, decodePagerWord_wordOf (by decide), pagerInstr_read, decodePage_codes hw]
  | pgWrite b p o d =>
    rw [encode, decodeRequest, decodePagerWord_wordOf (by decide), pagerInstr_write, decodePage_codes hw]
  | pgCount b s =>
    rw [encode, decodeRequest, decodePagerWord_wordOf (by decide), pagerInstr_count, decodeSize_sizeCode]

/-- Settles O1: each port's decoder reads back the fields the encoder wrote. -/
theorem decodeInvertsEncode : Obligations.DecodeInvertsEncode :=
  fun _ _ => decodeRequest_encode

/-! What a word decodes to has a word. -/

/-- An index read from the 32-bit field N fits it. -/
theorem decodePage_fitsWord (k : BitVec 2) (s : PageSizeKb) (n : BitVec 32) : (decodePage k s n).fitsWord = true := by
  unfold decodePage
  split_ifs
  · rfl
  · rfl
  · exact decide_eq_true n.isLt
  · exact decide_eq_true n.isLt

theorem pagerInstr_wellFormed (op : BitVec 2) (b : BufferId) (k : BitVec 2) (s : PageSizeKb) (n : BitVec 32) (o : Addr)
    (d : Byte) : (pagerInstr op b k s n o d).wellFormed = true := by
  unfold pagerInstr
  split_ifs
  · exact decodePage_fitsWord k s n
  · exact decodePage_fitsWord k s n
  · rfl

theorem decodePagerWord_wellFormed {w : BitVec 64} {i : Instr} (h : decodePagerWord w = .ok i) :
    i.wellFormed = true := by
  unfold decodePagerWord at h
  split_ifs at h
  split at h
  · cases h
  · cases h
    exact pagerInstr_wellFormed ..

theorem decodeMapperOp_wellFormed {v : Variant} {op : BitVec 3} {a : Addr} {d : Byte} {i : Instr}
    (h : decodeMapperOp v op a d = .ok i) : i.wellFormed = true := by
  cases v with
  | mapper2 =>
    simp only [decodeMapperOp, decodeMapper2Op] at h
    split_ifs at h <;> cases h <;> rfl
  | mapper3 =>
    simp only [decodeMapperOp, decodeMapper3Op] at h
    split_ifs at h <;> cases h <;> rfl

theorem decodeMapperWord_wellFormed {v : Variant} {w : BitVec 32} {i : Instr} (h : decodeMapperWord v w = .ok i) :
    i.wellFormed = true := by
  unfold decodeMapperWord at h
  split_ifs at h
  exact decodeMapperOp_wellFormed h

/-- Of the three transactions only the structured command can carry an index that has no word (30_encoding.md R57). -/
theorem decodeRequest_wellFormed {v : Variant} {r : Request} {i : Instr} (h : decodeRequest v r = .ok i)
    (hr : ∀ c, r ≠ .pagerCommand c) : i.wellFormed = true := by
  cases r with
  | mapperWord w => exact decodeMapperWord_wellFormed h
  | pagerWord w => exact decodePagerWord_wellFormed h
  | pagerCommand c => exact absurd rfl (hr c)

/-- Settles O2: the decoder answers with the variant's own rows, and what it reads from a word is well-formed, so the
round trip applies to it. -/
theorem decodedInstructionIsTheVariantsOwn : Obligations.DecodedInstructionIsTheVariantsOwn := by
  intro v r i h
  have hv : i.availableOn v = true := Machine.decodeRequest_availableOn h
  refine ⟨hv, fun hr => ?_⟩
  have hw : i.wellFormed = true := decodeRequest_wellFormed h hr
  exact ⟨hw, decodeRequest_encode hw hv⟩

end Sys2Proof

/-! The hazard law of 43_mapper2_uxrom.md (R97; 70_reset_and_hazards.md R131): a bank select and the read after it. -/

namespace Sys2Proof.Machine

theorem toNat_maskedBank (d : Byte) : ((d &&& 0x0F#8).setWidth 4).toNat = d.toNat % 16 := by
  rw [← prgBankOfData_eq_mask, prgBankOfData]
  simp

/-- Settles O20: the bank select leaves a live block of the same PRG_ROM with `d mod 16` in its register, and what the
read there delivers is O15. -/
theorem mapper2BankIsSeenByTheNextRead : Obligations.Mapper2BankIsSeenByTheNextRead := by
  intro s prg0 a a' d hm hf ha ha' hlen h0
  refine ⟨_, exec_m2WrPrg_inDomain d hm hf ha, ?_⟩
  obtain ⟨hlow, hhigh, -, -, hnobank, -⟩ := mapper2ReadsProgramByte
    (Claims.completesWith s { s.block with mapper := .mapper2 ((d &&& 0x0F#8).setWidth 4) }) _ a' rfl hf
  rw [toNat_maskedBank] at hlow hnobank
  exact ⟨fun hwin hbank => hlow ha' hwin hlen hbank,
    fun hwin hbank => ⟨_, _, hnobank ha' hwin hlen hbank, rfl, rfl⟩,
    fun hwin => hhigh hwin hlen h0⟩

end Sys2Proof.Machine
